-- ==== Sys2Proof/Word.lean ====
section
/-! DEFINITION. The word types of the block (spec 00_scope.md R5, R6): every register, memory cell, address and
instruction word is a `Word` of 16 bits, every console character a `Byte` of 8. Addition on words is modulo 2^16 (R7),
which is what `BitVec` addition is. -/

namespace Sys2Proof

/-- A 16-bit word: a register, a memory cell, an address or an instruction word (R5, WORD and ADDR). -/
abbrev Word := BitVec 16

/-- An 8-bit console character (R5, CHAR; R94). -/
abbrev Byte := BitVec 8

end Sys2Proof
end

