-- ==== Sys2Proof/Config.lean ====
section
/-! DEFINITION. The fixed values of spec 00_scope.md R5 that are no parameter. The values of the spec's PARAMETERS stand
where a repair can reach them: OPCODE_OF in Decode.lean (`opcodeOf`), COND_RESET, MEM_INIT and CONSOLE_IN in
Machine/Params.lean. The spec gives no instruction an undefined result, so this file holds no free value. -/

namespace Sys2Proof.Config

/-- ORIGIN, the start address (R5, R42, R125). -/
def origin : Word := 0x3000

/-- MEMSIZE, the number of memory cells, one for each 16-bit address (R5, R36). -/
def memSize : Nat := 65536

end Sys2Proof.Config
end

