-- ==== Sys2Proof/Syntax.lean ====
section
/-! DEFINITION. The instructions: the 16 opcodes of spec 30_encoding.md R49 and one constructor of `Instr` for each of the
25 rows of spec/opcode_table.json. The bits that R52 marks `x` are no part of an instruction, since no handler reads
them (R56); immediates and offsets are the raw fields, sign-extended by the meanings (R54). -/

namespace Sys2Proof

/-- The index of a general register R0..R7 (R13). -/
abbrev Reg := Fin 8

/-- The 16 opcodes of R49, each with one handler (R67). -/
inductive Opcode where
  | br | add | ld | st | jsr | and | ldr | str | rti | not | ldi | sti | jmp | res | lea | trap
  deriving DecidableEq, Repr

/-- The instructions, one constructor per row of the opcode table. -/
inductive Instr where
  /-- ADD, register form (R74). -/
  | addReg (dr sr1 sr2 : Reg)
  /-- ADD, immediate form (R75). -/
  | addImm (dr sr1 : Reg) (imm5 : BitVec 5)
  /-- AND, register form (R76). -/
  | andReg (dr sr1 sr2 : Reg)
  /-- AND, immediate form (R77). -/
  | andImm (dr sr1 : Reg) (imm5 : BitVec 5)
  /-- NOT (R78). -/
  | not (dr sr1 : Reg)
  /-- LD (R80). -/
  | ld (dr : Reg) (off9 : BitVec 9)
  /-- LDI (R81). -/
  | ldi (dr : Reg) (off9 : BitVec 9)
  /-- LDR (R82). -/
  | ldr (dr baseR : Reg) (off6 : BitVec 6)
  /-- LEA (R83). -/
  | lea (dr : Reg) (off9 : BitVec 9)
  /-- ST (R84). -/
  | st (sr : Reg) (off9 : BitVec 9)
  /-- STI (R85). -/
  | sti (sr : Reg) (off9 : BitVec 9)
  /-- STR (R86). -/
  | str (sr baseR : Reg) (off6 : BitVec 6)
  /-- BR with its condMask (n = bit 2, z = bit 1, p = bit 0; R51, R88). -/
  | br (condMask : BitVec 3) (off9 : BitVec 9)
  /-- JMP; RET is JMP R7 (R89). -/
  | jmp (baseR : Reg)
  /-- JSR (R90). -/
  | jsr (off11 : BitVec 11)
  /-- JSRR (R91). -/
  | jsrr (baseR : Reg)
  /-- GETC, TRAP vector 0x20 (R99). -/
  | getc
  /-- OUT, TRAP vector 0x21 (R100). -/
  | out
  /-- PUTS, TRAP vector 0x22 (R101). -/
  | puts
  /-- IN, TRAP vector 0x23 (R102). -/
  | inp
  /-- PUTSP, TRAP vector 0x24 (R103). -/
  | putsp
  /-- HALT, TRAP vector 0x25 (R104). -/
  | halt
  /-- The generic TRAP row (R93); the decoder makes it only for a vector that no row above takes (R105). -/
  | trap (vec : BitVec 8)
  /-- RTI, reserved (R107). -/
  | rti
  /-- RES, reserved (R108). -/
  | res
  deriving DecidableEq, Repr

/-- The opcode of an instruction (R49). -/
def Instr.opcode : Instr → Opcode
  | .addReg _ _ _ => .add
  | .addImm _ _ _ => .add
  | .andReg _ _ _ => .and
  | .andImm _ _ _ => .and
  | .not _ _ => .not
  | .ld _ _ => .ld
  | .ldi _ _ => .ldi
  | .ldr _ _ _ => .ldr
  | .lea _ _ => .lea
  | .st _ _ => .st
  | .sti _ _ => .sti
  | .str _ _ _ => .str
  | .br _ _ => .br
  | .jmp _ => .jmp
  | .jsr _ => .jsr
  | .jsrr _ => .jsr
  | .getc => .trap
  | .out => .trap
  | .puts => .trap
  | .inp => .trap
  | .putsp => .trap
  | .halt => .trap
  | .trap _ => .trap
  | .rti => .rti
  | .res => .res

end Sys2Proof
end

