-- ==== Sys2Proof/WellFormed.lean ====
section
/-! DEFINITION. Which terms of `Instr` are instructions. Every operand has exactly the width of its field, so one check is
left: the generic TRAP constructor stands only for a vector that names no service, because the six service rows of the
opcode table take precedence over the generic row (spec 44_trap.md R93). -/

namespace Sys2Proof

/-- The vectors of the six services, 0x20..0x25 (R93). -/
def isServiceVector (v : BitVec 8) : Bool :=
  decide (0x20 ≤ v.toNat) && decide (v.toNat ≤ 0x25)

/-- The well-formed instructions. -/
def Instr.wellFormed : Instr → Bool
  | .trap v => !isServiceVector v
  | .addReg _ _ _ | .addImm _ _ _ | .andReg _ _ _ | .andImm _ _ _ | .not _ _ => true
  | .ld _ _ | .ldi _ _ | .ldr _ _ _ | .lea _ _ | .st _ _ | .sti _ _ | .str _ _ _ => true
  | .br _ _ | .jmp _ | .jsr _ | .jsrr _ => true
  | .getc | .out | .puts | .inp | .putsp | .halt | .rti | .res => true

end Sys2Proof
end

