-- ==== Sys2Proof/Decode.lean ====
section
/-! DEFINITION. Decoding and encoding (spec 30_encoding.md; the dispatcher's decode, 40_dispatch.md R67). The map from
mnemonics to 4-bit opcode values is the spec's PARAMETER OPCODE_OF (R5, R49): `decodeWith` and `encodeWith` take it as an
argument, and `opcodeOf` is the value the spec gives it (PRESUMED from the LC-3 family by the spec itself, its decision D1;
log entry 1). -/

namespace Sys2Proof

/-- Why a decoder rejects its input. -/
inductive DecodeError where
  /-- "Unknown opcode": the defensive arm of R67. No word reaches it under `handlerOf`, which is total (R49). -/
  | unknownOpcode (op : BitVec 4)
  /-- Fewer bytes than one instruction word, which has two (R49). -/
  | truncated
  deriving DecidableEq, Repr

/-! ## OPCODE_OF -/

/-- OPCODE_OF: the opcode value of each mnemonic, the table of R49. -/
def opcodeOf : Opcode → BitVec 4
  | .br => 0x0
  | .add => 0x1
  | .ld => 0x2
  | .st => 0x3
  | .jsr => 0x4
  | .and => 0x5
  | .ldr => 0x6
  | .str => 0x7
  | .rti => 0x8
  | .not => 0x9
  | .ldi => 0xA
  | .sti => 0xB
  | .jmp => 0xC
  | .res => 0xD
  | .lea => 0xE
  | .trap => 0xF

/-- The handler an opcode value selects: R49's table read from the value to the mnemonic, with the defensive arm of R67. -/
def handlerOf (op : BitVec 4) : Option Opcode :=
  match op.toNat with
  | 0x0 => some .br
  | 0x1 => some .add
  | 0x2 => some .ld
  | 0x3 => some .st
  | 0x4 => some .jsr
  | 0x5 => some .and
  | 0x6 => some .ldr
  | 0x7 => some .str
  | 0x8 => some .rti
  | 0x9 => some .not
  | 0xA => some .ldi
  | 0xB => some .sti
  | 0xC => some .jmp
  | 0xD => some .res
  | 0xE => some .lea
  | 0xF => some .trap
  | _ => none

/-! ## The fields of an instruction word (R50, R52) -/

/-- A 3-bit register field as a register index (R13). -/
def regOfBits (b : BitVec 3) : Reg := b.toFin

/-- A register index as its 3-bit field. -/
def bitsOfReg (r : Reg) : BitVec 3 := BitVec.ofFin r

/-- `ir[15:12]`, the opcode (R49). -/
def opField (ir : Word) : BitVec 4 := ir.extractLsb' 12 4

/-- `ir[11:9]`: DR, SR or condMask (R50, R51). -/
def field11_9 (ir : Word) : BitVec 3 := ir.extractLsb' 9 3

/-- `ir[8:6]`: SR1 or BaseR (R50). -/
def field8_6 (ir : Word) : BitVec 3 := ir.extractLsb' 6 3

/-- `ir[2:0]`: SR2 (R50). -/
def field2_0 (ir : Word) : BitVec 3 := ir.extractLsb' 0 3

/-- `ir[4:0]`: imm5 (R54). -/
def imm5Field (ir : Word) : BitVec 5 := ir.extractLsb' 0 5

/-- `ir[5:0]`: offset6 (R54). -/
def offset6Field (ir : Word) : BitVec 6 := ir.extractLsb' 0 6

/-- `ir[8:0]`: PCoffset9 (R54). -/
def pcOffset9Field (ir : Word) : BitVec 9 := ir.extractLsb' 0 9

/-- `ir[10:0]`: PCoffset11 (R54). -/
def pcOffset11Field (ir : Word) : BitVec 11 := ir.extractLsb' 0 11

/-- `ir[7:0]`: trapvect8, the dispatch key of TRAP (R55). -/
def trapVectorField (ir : Word) : BitVec 8 := ir.extractLsb' 0 8

/-- `immFlag = ir[5]` of ADD and AND (R53). -/
def immFlag (ir : Word) : Bool := ir.getLsbD 5

/-- `flag = ir[11]` of JSR and JSRR (R53). -/
def jsrFlag (ir : Word) : Bool := ir.getLsbD 11

/-! ## Decode -/

/-- The instruction a TRAP word stands for: a service row for each of the six vectors, the generic row otherwise (R93). -/
def decodeTrap (v : BitVec 8) : Instr :=
  match v.toNat with
  | 0x20 => .getc
  | 0x21 => .out
  | 0x22 => .puts
  | 0x23 => .inp
  | 0x24 => .putsp
  | 0x25 => .halt
  | _ => .trap v

/-- The fields each handler cuts from the whole word (R50, R52, R53). -/
def decodeAs : Opcode → Word → Instr
  | .add, ir =>
    if immFlag ir then .addImm (regOfBits (field11_9 ir)) (regOfBits (field8_6 ir)) (imm5Field ir)
    else .addReg (regOfBits (field11_9 ir)) (regOfBits (field8_6 ir)) (regOfBits (field2_0 ir))
  | .and, ir =>
    if immFlag ir then .andImm (regOfBits (field11_9 ir)) (regOfBits (field8_6 ir)) (imm5Field ir)
    else .andReg (regOfBits (field11_9 ir)) (regOfBits (field8_6 ir)) (regOfBits (field2_0 ir))
  | .not, ir => .not (regOfBits (field11_9 ir)) (regOfBits (field8_6 ir))
  | .ld, ir => .ld (regOfBits (field11_9 ir)) (pcOffset9Field ir)
  | .ldi, ir => .ldi (regOfBits (field11_9 ir)) (pcOffset9Field ir)
  | .ldr, ir => .ldr (regOfBits (field11_9 ir)) (regOfBits (field8_6 ir)) (offset6Field ir)
  | .lea, ir => .lea (regOfBits (field11_9 ir)) (pcOffset9Field ir)
  | .st, ir => .st (regOfBits (field11_9 ir)) (pcOffset9Field ir)
  | .sti, ir => .sti (regOfBits (field11_9 ir)) (pcOffset9Field ir)
  | .str, ir => .str (regOfBits (field11_9 ir)) (regOfBits (field8_6 ir)) (offset6Field ir)
  | .br, ir => .br (field11_9 ir) (pcOffset9Field ir)
  | .jmp, ir => .jmp (regOfBits (field8_6 ir))
  | .jsr, ir => if jsrFlag ir then .jsr (pcOffset11Field ir) else .jsrr (regOfBits (field8_6 ir))
  | .trap, ir => decodeTrap (trapVectorField ir)
  | .rti, _ => .rti
  | .res, _ => .res

/-- The decoder over any opcode assignment: the opcode alone selects the handler (R67). -/
def decodeWith (handler : BitVec 4 → Option Opcode) (ir : Word) : Except DecodeError Instr :=
  match handler (opField ir) with
  | some o => .ok (decodeAs o ir)
  | none => .error (.unknownOpcode (opField ir))

/-- The decoder of this hardware, OPCODE_OF being R49's table. -/
def decodeWord (ir : Word) : Except DecodeError Instr := decodeWith handlerOf ir

/-- A word from its two bytes in image order, low byte first (R39 (a), R127): the bytes b0, b1 are the cell `b1 : b0`. -/
def wordOfBytes (b0 b1 : Byte) : Word := b1 ++ b0

/-- The decoder on the bytes of an image: one instruction, two bytes, and what follows it. -/
def decodeBytes : List Byte → Except DecodeError (Instr × List Byte)
  | b0 :: b1 :: rest =>
    match decodeWord (wordOfBytes b0 b1) with
    | .ok i => .ok (i, rest)
    | .error e => .error e
  | [_] => .error .truncated
  | [] => .error .truncated

/-- The word whose bits the opcode table numbers in `w`, every bit above `nbits` zero. -/
def tableWord (nbits w : Nat) : Word := BitVec.ofNat 16 (w % 2 ^ nbits)

/-- The instruction the decoder reads from a word of the opcode table. An instruction has one 16-bit word (R49), so a longer
one is none of this hardware's. -/
def decodeTableWord (nbits w : Nat) : Option Instr :=
  if nbits ≤ 16 then
    match decodeWord (tableWord nbits w) with
    | .ok i => some i
    | .error _ => none
  else none

/-! ## Encode: the formats of R52, each unread bit 0 -/

/-- A field put into a word with its lowest bit at bit `lo`. -/
def place {n : Nat} (lo : Nat) (f : BitVec n) : Word := f.setWidth 16 <<< lo

/-- OPR: [15:12] opcode, [11:9] DR, [8:6] SR1, [5] = 0, [4:3] unread, [2:0] SR2. -/
def formatOPR (op : BitVec 4) (d s t : Reg) : Word :=
  place 12 op ||| place 9 (bitsOfReg d) ||| place 6 (bitsOfReg s) ||| place 0 (bitsOfReg t)

/-- OPI: [15:12] opcode, [11:9] DR, [8:6] SR1, [5] = 1, [4:0] imm5. -/
def formatOPI (op : BitVec 4) (d s : Reg) (imm : BitVec 5) : Word :=
  place 12 op ||| place 9 (bitsOfReg d) ||| place 6 (bitsOfReg s) ||| place 5 (1 : BitVec 1) ||| place 0 imm

/-- UN: [15:12] opcode, [11:9] DR, [8:6] SR1, [5:0] unread. -/
def formatUN (op : BitVec 4) (d s : Reg) : Word :=
  place 12 op ||| place 9 (bitsOfReg d) ||| place 6 (bitsOfReg s)

/-- PC9 and BR: [15:12] opcode, [11:9] DR, SR or condMask, [8:0] PCoffset9. -/
def formatPC9 (op : BitVec 4) (f : BitVec 3) (off : BitVec 9) : Word :=
  place 12 op ||| place 9 f ||| place 0 off

/-- B6: [15:12] opcode, [11:9] DR or SR, [8:6] BaseR, [5:0] offset6. -/
def formatB6 (op : BitVec 4) (d b : Reg) (off : BitVec 6) : Word :=
  place 12 op ||| place 9 (bitsOfReg d) ||| place 6 (bitsOfReg b) ||| place 0 off

/-- JR: [15:12] opcode, [8:6] BaseR, the other bits unread. JRR is the same with [11] = 0 as its mode bit. -/
def formatJR (op : BitVec 4) (b : Reg) : Word :=
  place 12 op ||| place 6 (bitsOfReg b)

/-- J11: [15:12] opcode, [11] = 1, [10:0] PCoffset11. -/
def formatJ11 (op : BitVec 4) (off : BitVec 11) : Word :=
  place 12 op ||| place 11 (1 : BitVec 1) ||| place 0 off

/-- TV: [15:12] opcode, [11:8] unread, [7:0] trapvect8. -/
def formatTV (op : BitVec 4) (v : BitVec 8) : Word :=
  place 12 op ||| place 0 v

/-- NONE: [15:12] opcode, [11:0] unread. -/
def formatNONE (op : BitVec 4) : Word :=
  place 12 op

/-- The word of an instruction over any opcode assignment (R52). -/
def encodeWith (opc : Opcode → BitVec 4) : Instr → Word
  | .addReg d a b => formatOPR (opc .add) d a b
  | .addImm d a imm => formatOPI (opc .add) d a imm
  | .andReg d a b => formatOPR (opc .and) d a b
  | .andImm d a imm => formatOPI (opc .and) d a imm
  | .not d a => formatUN (opc .not) d a
  | .ld d off => formatPC9 (opc .ld) (bitsOfReg d) off
  | .ldi d off => formatPC9 (opc .ldi) (bitsOfReg d) off
  | .ldr d b off => formatB6 (opc .ldr) d b off
  | .lea d off => formatPC9 (opc .lea) (bitsOfReg d) off
  | .st r off => formatPC9 (opc .st) (bitsOfReg r) off
  | .sti r off => formatPC9 (opc .sti) (bitsOfReg r) off
  | .str r b off => formatB6 (opc .str) r b off
  | .br mask off => formatPC9 (opc .br) mask off
  | .jmp b => formatJR (opc .jmp) b
  | .jsr off => formatJ11 (opc .jsr) off
  | .jsrr b => formatJR (opc .jsr) b
  | .getc => formatTV (opc .trap) 0x20
  | .out => formatTV (opc .trap) 0x21
  | .puts => formatTV (opc .trap) 0x22
  | .inp => formatTV (opc .trap) 0x23
  | .putsp => formatTV (opc .trap) 0x24
  | .halt => formatTV (opc .trap) 0x25
  | .trap v => formatTV (opc .trap) v
  | .rti => formatNONE (opc .rti)
  | .res => formatNONE (opc .res)

/-- The word of an instruction, every unread bit 0. -/
def encode (i : Instr) : Word := encodeWith opcodeOf i

/-- The bits of an instruction's word that its handler does not read (R52's `x`, listed in R56). -/
def unreadBits : Instr → Word
  | .addReg _ _ _ | .andReg _ _ _ => 0x0018
  | .addImm _ _ _ | .andImm _ _ _ => 0x0000
  | .not _ _ => 0x003F
  | .ld _ _ | .ldi _ _ | .ldr _ _ _ | .lea _ _ | .st _ _ | .sti _ _ | .str _ _ _ => 0x0000
  | .br _ _ | .jsr _ => 0x0000
  | .jmp _ => 0x0E3F
  | .jsrr _ => 0x063F
  | .getc | .out | .puts | .inp | .putsp | .halt | .trap _ => 0x0F00
  | .rti | .res => 0x0FFF

end Sys2Proof
end

