-- ==== Sys2Proof/Machine/Params.lean ====
section
/-! DEFINITION. The default values of the spec's PARAMETERS (00_scope.md R5) and of the state it leaves open before start
(10_state.md R32). `State.resetWith` takes COND_RESET, MEM_INIT and CONSOLE_IN as arguments; `State.reset` is its value at
these defaults. -/

namespace Sys2Proof.Machine

/-- COND_RESET: no flag set, the value R21 resolves it to (decision D4; log entry 2). -/
def condReset : BitVec 3 := 0b000

/-- PC after reset. R32 calls it unspecified and unobservable; the model takes the entry point that R32 calls the reset
vector (DESIGN CHOICE, unsafe; log entry 3). -/
def pcReset : Word := Config.origin

/-- IR after reset, unspecified and unobservable (R32). DESIGN CHOICE, unsafe; log entry 3. -/
def irReset : Word := 0

/-- What a cell that the memory does not list reads as. The spec leaves such cells to MEM_INIT (R42, N9), so a memory lists
every cell of an image that differs from this word. DESIGN CHOICE, unsafe; log entry 4. -/
def unlistedCell : Word := 0

/-- CONSOLE_IN right after reset: nothing supplied yet (R5, R132). DESIGN CHOICE, unsafe; log entry 5. -/
def consoleInReset : List Byte := []

end Sys2Proof.Machine
end

