-- ==== Sys2Proof/Machine/Memory.lean ====
section
/-! DEFINITION. The one flat memory of 65,536 16-bit cells (spec 20_memory.md R36). The unit is the cell, the smallest thing
the hardware addresses: no instruction reads or writes a byte of memory (R39), so no byte order is invented (log entry 6).
A memory is a list of (address, word) pairs; an address it does not list reads as `unlistedCell`. -/

namespace Sys2Proof.Machine

/-- Memory contents: the listed cells, by address. -/
structure Memory where
  cells : List (Nat × Word)
  deriving DecidableEq, Repr

/-- No cell listed. -/
def Memory.empty : Memory := ⟨[]⟩

/-- The canonical form: addresses strictly rising and inside the address space, and no entry equal to what an unlisted
address reads as. Every operation on memory keeps it (Laws/Memory.lean), so equal memories are equal data. -/
abbrev Memory.wf (m : Memory) : Prop :=
  (m.cells.Pairwise fun c d => c.1 < d.1) ∧ ∀ c ∈ m.cells, c.1 < Config.memSize ∧ c.2 ≠ unlistedCell

/-- The word listed at an address, or what an unlisted address reads as. -/
def lookupCell : List (Nat × Word) → Nat → Word
  | [], _ => unlistedCell
  | c :: rest, a => if c.1 = a then c.2 else lookupCell rest a

/-- A cell put before the first listed cell of a higher address. -/
def insertCell (a : Nat) (v : Word) : List (Nat × Word) → List (Nat × Word)
  | [] => [(a, v)]
  | c :: rest => if a < c.1 then (a, v) :: c :: rest else c :: insertCell a v rest

/-- The listed cells without the one at `a`. -/
def removeCell (a : Nat) : List (Nat × Word) → List (Nat × Word)
  | [] => []
  | c :: rest => if c.1 = a then removeCell a rest else c :: removeCell a rest

/-- `MemRead(addr, 1)` (R34): the word in the cell. Reading changes nothing, at every address (R38). -/
def Memory.read (m : Memory) (addr : Word) : Word := lookupCell m.cells addr.toNat

/-- `MemWrite(addr, 1, v)` (R35): replaces the word in the cell and changes no other cell. -/
def Memory.write (m : Memory) (addr : Word) (v : Word) : Memory :=
  if v = unlistedCell then ⟨removeCell addr.toNat m.cells⟩
  else ⟨insertCell addr.toNat v (removeCell addr.toNat m.cells)⟩

end Sys2Proof.Machine
end

