-- ==== Sys2Proof/Machine/State.lean ====
section
/-! DEFINITION. The state of the block (spec 10_state.md), as plain data, and the state right after reset (R32). Beside the
architectural state (R0..R7, PC, COND, memory) it holds the run state, the fatal status, the instruction register and the
input wait that the spec names (R27, R28, R29, R31), and the two streams of the console port (44_trap.md R94). -/

namespace Sys2Proof.Machine

/-- RUNSTATE (R27, R61). -/
inductive RunState where
  | preRun
  | running
  | halted
  deriving DecidableEq, Repr

/-- The reasons of a fatal error (60_exceptions.md R112). -/
inductive FatalReason where
  /-- The dispatcher's defensive arm; never raised under R49's table (R112). -/
  | unknownOpcode
  /-- Raised by RTI and RES (R107, R108). -/
  | reservedOpcode
  /-- Raised by TRAP with a vector outside 0x20..0x25 (R105). -/
  | unknownTrap
  /-- For an implementation with wider addresses; never raised by this block (R43, R112). -/
  | outOfBounds
  deriving DecidableEq, Repr

/-- The codes R112 gives the reasons (labels only, decision D15). -/
def FatalReason.code : FatalReason → Nat
  | .unknownOpcode => 1
  | .reservedOpcode => 2
  | .unknownTrap => 3
  | .outOfBounds => 4

/-- A fatal reason with the information recorded with it: `ir`, or `ir[7:0]` for UnknownTrap (R112). -/
structure FatalRecord where
  reason : FatalReason
  info : Word
  deriving DecidableEq, Repr

/-- The events the block issues at the console port (R94). -/
inductive ConEvent where
  /-- `ConOut(c)` on the primary output stream (R96). -/
  | out (c : Byte)
  /-- `ConFlush()` (R97). -/
  | flush
  /-- `ConErr(reason, info)` on the diagnostic stream (R98); the text is left open, so only the record is kept. -/
  | err (r : FatalRecord)
  deriving DecidableEq, Repr

/-- Where in a step the block stands. Every instruction is one atomic step (R68, R72), but for the split of R70 at the
console input and for a string service that can never end (R101, R103). -/
inductive Phase where
  /-- Between steps: the next step fetches. -/
  | ready
  /-- Held in `ConIn()` by GETC or IN: only the write of R0 is left (R70, R31). -/
  | inputHold
  /-- Inside a PUTS that finds no terminating cell anywhere in memory: the step never completes (R101, U9). -/
  | putsLoop
  /-- Inside a PUTSP that finds no terminating cell anywhere in memory: the step never completes (R103, U9). -/
  | putspLoop
  deriving DecidableEq, Repr

/-- The state of the block and of its console port. -/
structure State where
  /-- R0..R7 (R13). -/
  regs : Vector Word 8
  /-- PC (R16). -/
  pc : Word
  /-- COND: N = bit 2, Z = bit 1, P = bit 0 (R24). -/
  cond : BitVec 3
  /-- IR, the word of the current step (R29). -/
  ir : Word
  /-- The memory behind the memory port (R36, R71). -/
  mem : Memory
  /-- RUNSTATE (R27). -/
  runState : RunState
  /-- FATAL: none, or the one fatal reason with its information (R28). -/
  fatal : Option FatalRecord
  /-- The input wait and the unending string scan (R31, R70, U9). -/
  phase : Phase
  /-- CONSOLE_IN as far as the host has supplied it and the block has not consumed it, next character first (R94, R95). -/
  consoleIn : List Byte
  /-- The output trace, oldest event first (R94). -/
  consoleOut : List ConEvent
  deriving DecidableEq, Repr

/-- The reasons a step can stop with a fault. There is none: the block's only exceptional event, the fatal error, has the
effect R113 gives it and is a next state (Halted, FATAL set), so no meaning ever answers with a fault. -/
inductive Fault where
  deriving DecidableEq, Repr

/-- The reasons a step can be refused. -/
inductive Refusal where
  /-- Raised by `exec` for an instruction that has no meaning yet; safe, since nothing is claimed of it. Every instruction
  of this hardware has its meaning, so no arm raises it. -/
  | notModelled (mnemonic : String)
  deriving DecidableEq, Repr

/-- What a meaning answers. -/
abbrev Result := Host.Outcome State Fault Refusal

/-- The state after reset over the spec's parameters COND_RESET, MEM_INIT and CONSOLE_IN (R5, R32): registers
zero-initialized, PreRun, no fatal status. -/
def State.resetWith (cond : BitVec 3) (memInit : Memory) (consoleIn : List Byte) : State where
  regs := Vector.replicate 8 0
  pc := pcReset
  cond := cond
  ir := irReset
  mem := memInit
  runState := .preRun
  fatal := none
  phase := .ready
  consoleIn := consoleIn
  consoleOut := []

/-- The state right after reset, each parameter at its default. -/
def State.reset : State := State.resetWith condReset Memory.empty consoleInReset

end Sys2Proof.Machine
end

