-- ==== Sys2Proof/Machine/Ops.lean ====
section
/-! DEFINITION. The named operations every meaning is built from: the primitives of spec 00_scope.md R9, the start operation
(40_dispatch.md R62), fetch (R64 to R66), the console port (44_trap.md R94 to R98), and the one way an instruction raises a
fatal error (60_exceptions.md R113). There is no operation that returns from a fatal error: none exists (R115). -/

namespace Sys2Proof.Machine

/-! ## Registers and memory -/

/-- `x[r]`: read a general register (R9, R13). -/
def State.reg (s : State) (r : Reg) : Word := s.regs[r.val]

/-- `x[r] <- v`: write a general register; none is hard-wired (R13). -/
def State.setReg (s : State) (r : Reg) (v : Word) : State := { s with regs := s.regs.set r.val v }

/-- `pc <- target` (R9). -/
def State.setPc (s : State) (target : Word) : State := { s with pc := target }

/-- `MemRead(addr, 1)` (R34). -/
def State.memRead (s : State) (addr : Word) : Word := s.mem.read addr

/-- `MemWrite(addr, 1, v)` (R35). -/
def State.memWrite (s : State) (addr : Word) (v : Word) : State := { s with mem := s.mem.write addr v }

/-! ## Bytes and words -/

/-- `zext_16(b)`: an 8-bit value in bits [7:0], bits [15:8] zero (R8). -/
def zext16 (b : Byte) : Word := b.setWidth 16

/-- `w[7:0]`. -/
def lowByte (w : Word) : Byte := w.extractLsb' 0 8

/-- `w[15:8]`. -/
def highByte (w : Word) : Byte := w.extractLsb' 8 8

/-! ## The console port -/

/-- `ConOut(c)`: appends one character to the primary output, with no flush (R96). -/
def conOut (c : Byte) (s : State) : State := { s with consoleOut := s.consoleOut ++ [.out c] }

/-- `outputChars(text)`: `ConOut` of each character in order (R96). -/
def conOutAll (cs : List Byte) (s : State) : State := { s with consoleOut := s.consoleOut ++ cs.map .out }

/-- `ConFlush()` (R97). -/
def conFlush (s : State) : State := { s with consoleOut := s.consoleOut ++ [.flush] }

/-- `ConErr(reason, info)` (R98). -/
def conErr (r : FatalRecord) (s : State) : State := { s with consoleOut := s.consoleOut ++ [.err r] }

/-- `ConIn()` where a character is there to be had: the next one, consumed (R95). `none` is the wait of R70. -/
def conIn (s : State) : Option (Byte × State) :=
  match s.consoleIn with
  | c :: rest => some (c, { s with consoleIn := rest })
  | [] => none

/-! ## The run state -/

/-- `halt()` (R63). -/
def halt (s : State) : State := { s with runState := .halted }

/-- `raise Fatal(reason, info)`, the fatal entry of R113: one diagnostic, FATAL, Halted. It changes no register, COND, PC or
memory cell, writes nothing to the primary output, and issues no flush (D23). -/
def raiseFatal (reason : FatalReason) (info : Word) (s : State) : State :=
  halt { conErr ⟨reason, info⟩ s with fatal := some ⟨reason, info⟩ }

/-- The start operation, `run()` (R62). Outside PreRun it has no effect (R61, D17). -/
def start (s : State) : State :=
  match s.runState with
  | .preRun => { s with runState := .running, pc := Config.origin }
  | .running => s
  | .halted => s

/-- Fetch and increment (R64, R65, R66): `ir <- MemRead(pc, 1); pc <- pc + 1`, modulo 2^16. -/
def fetch (s : State) : State := { s with ir := s.memRead s.pc, pc := s.pc + 1 }

end Sys2Proof.Machine
end

