-- ==== Sys2Proof/Machine/Operands.lean ====
section
/-! DEFINITION. Operand forms: sign extension (spec 00_scope.md R8, 30_encoding.md R54), the second operand of ADD and AND
(R53), and the three addresses of the address generator (42_loads_stores.md R79). `s.pc` is the incremented PC of
10_state.md R17. -/

namespace Sys2Proof.Machine

/-- `sext_N(v)`, the source's `signExtend(value, bitCount)` (R8): if the highest bit of the N-bit field is set, OR the value
with `0xFFFF << N`; otherwise return it unchanged. -/
def sext {n : Nat} (v : BitVec n) : Word :=
  if v.msb then v.setWidth 16 ||| ((0xFFFF : Word) <<< n) else v.setWidth 16

/-- The register operand `x[SR]` (R53). -/
def regOperand (r : Reg) (s : State) : Word := s.reg r

/-- The immediate operand `sext_5(imm5)` (R53, R54). -/
def immOperand (imm : BitVec 5) : Word := sext imm

/-- `ea_pc9 = pc + sext_9(ir[8:0])` (R79). -/
def eaPc9 (off : BitVec 9) (s : State) : Word := s.pc + sext off

/-- `ea_base6 = x[BaseR] + sext_6(ir[5:0])` (R79). -/
def eaBase6 (base : Reg) (off : BitVec 6) (s : State) : Word := s.reg base + sext off

/-- `ea_ind = MemRead(ea_pc9, 1)`, the pointer of LDI and STI (R79). -/
def eaInd (off : BitVec 9) (s : State) : Word := s.memRead (eaPc9 off s)

/-- The target of a PC-relative subroutine call, `pc + sext_11(ir[10:0])` (R90). -/
def targetPc11 (off : BitVec 11) (s : State) : Word := s.pc + sext off

end Sys2Proof.Machine
end

