-- ==== Sys2Proof/Machine/Flags.lean ====
section
/-! DEFINITION. The condition register COND: its four values (spec 10_state.md R24), the flag update (R20), and the condition
evaluator of BR (43_control.md R87). The bit layout is the spec's decision D3 (log entry 2). -/

namespace Sys2Proof.Machine

/-- NEG (R24). -/
def condNEG : BitVec 3 := 0b100

/-- ZRO (R24). -/
def condZRO : BitVec 3 := 0b010

/-- POS (R24). -/
def condPOS : BitVec 3 := 0b001

/-- NONE: no flag set (R24). -/
def condNONE : BitVec 3 := 0b000

/-- The flag of a value: negative if bit 15 is set, zero if the value is zero, positive otherwise (R20). -/
def condOf (v : Word) : BitVec 3 :=
  if v.getLsbD 15 then condNEG else if v = 0 then condZRO else condPOS

/-- `setcc(v)` (R20): the only writer of COND. -/
def setcc (v : Word) (s : State) : State := { s with cond := condOf v }

/-- The end of every flag-affecting instruction (R22): the result goes to DR and COND is set from it. -/
def writeResult (dr : Reg) (v : Word) (s : State) : State := setcc v (s.setReg dr v)

/-- The condition evaluator of R87: `taken = ((condMask & COND) != 0)`. -/
def condTaken (condMask cond : BitVec 3) : Bool := condMask &&& cond != 0

end Sys2Proof.Machine
end

