-- ==== Sys2Proof/Machine/Control.lean ====
section
/-! DEFINITION. Control transfer: BR, JMP, JSR, JSRR (spec 43_control.md). None writes COND (R22, decision D5; log entry 8),
and none has a delay slot (R92). -/

namespace Sys2Proof.Machine

/-- BR (R88): every condMask, 000 (never taken) included. -/
def execBr (condMask : BitVec 3) (off : BitVec 9) (s : State) : Result :=
  .next (if condTaken condMask s.cond then s.setPc (eaPc9 off s) else s)

/-- JMP, and RET as JMP R7 (R89). -/
def execJmp (base : Reg) (s : State) : Result :=
  .next (s.setPc (s.reg base))

/-- JSR (R90): both the link and the target use the incremented PC. -/
def execJsr (off : BitVec 11) (s : State) : Result :=
  .next ((s.setReg 7 s.pc).setPc (targetPc11 off s))

/-- JSRR (R91): the base is read AFTER R7 is written, so JSRR R7 continues at the next instruction (U6; log entry 9). -/
def execJsrr (base : Reg) (s : State) : Result :=
  .next ((s.setReg 7 s.pc).setPc ((s.setReg 7 s.pc).reg base))

end Sys2Proof.Machine
end

