-- ==== Sys2Proof/Machine/LoadStore.lean ====
section
/-! DEFINITION. Loads, stores and LEA (spec 42_loads_stores.md). Each access moves one whole cell; no address can fault
(R79), and no addressing mode changes its base register. -/

namespace Sys2Proof.Machine

/-- LD (R80). -/
def execLd (dr : Reg) (off : BitVec 9) (s : State) : Result :=
  .next (writeResult dr (s.memRead (eaPc9 off s)) s)

/-- LDI (R81): the pointer cell, then the data cell; the flags are those of the data. -/
def execLdi (dr : Reg) (off : BitVec 9) (s : State) : Result :=
  .next (writeResult dr (s.memRead (eaInd off s)) s)

/-- LDR (R82): the base is read before DR is written. -/
def execLdr (dr base : Reg) (off : BitVec 6) (s : State) : Result :=
  .next (writeResult dr (s.memRead (eaBase6 base off s)) s)

/-- LEA (R83): the address itself, with no memory access; the flags are those of the address. -/
def execLea (dr : Reg) (off : BitVec 9) (s : State) : Result :=
  .next (writeResult dr (eaPc9 off s) s)

/-- ST (R84): no flag update. -/
def execSt (sr : Reg) (off : BitVec 9) (s : State) : Result :=
  .next (s.memWrite (eaPc9 off s) (s.reg sr))

/-- STI (R85): the pointer is read before the write; no flag update. -/
def execSti (sr : Reg) (off : BitVec 9) (s : State) : Result :=
  .next (s.memWrite (eaInd off s) (s.reg sr))

/-- STR (R86): no flag update. -/
def execStr (sr base : Reg) (off : BitVec 6) (s : State) : Result :=
  .next (s.memWrite (eaBase6 base off s) (s.reg sr))

end Sys2Proof.Machine
end

