-- ==== Sys2Proof/Machine/Operate.lean ====
section
/-! DEFINITION. The operate instructions ADD, AND, NOT (spec 41_operate.md). Addition is modulo 2^16 with no carry, overflow
or exception (R73). Both sources are read from the state before DR is written. -/

namespace Sys2Proof.Machine

/-- ADD, register form (R74). -/
def execAddReg (dr sr1 sr2 : Reg) (s : State) : Result :=
  .next (writeResult dr (s.reg sr1 + regOperand sr2 s) s)

/-- ADD, immediate form (R75). -/
def execAddImm (dr sr1 : Reg) (imm : BitVec 5) (s : State) : Result :=
  .next (writeResult dr (s.reg sr1 + immOperand imm) s)

/-- AND, register form (R76). -/
def execAndReg (dr sr1 sr2 : Reg) (s : State) : Result :=
  .next (writeResult dr (s.reg sr1 &&& regOperand sr2 s) s)

/-- AND, immediate form (R77). -/
def execAndImm (dr sr1 : Reg) (imm : BitVec 5) (s : State) : Result :=
  .next (writeResult dr (s.reg sr1 &&& immOperand imm) s)

/-- NOT (R78). -/
def execNot (dr sr1 : Reg) (s : State) : Result :=
  .next (writeResult dr (~~~ s.reg sr1) s)

end Sys2Proof.Machine
end

