-- ==== Sys2Proof/Machine/Reserved.lean ====
section
/-! DEFINITION. The reserved opcodes RTI and RES (spec 45_reserved.md): each is always the fatal error ReservedOpcode,
recording the whole instruction word, which is in IR (R29). -/

namespace Sys2Proof.Machine

/-- RTI (R107). -/
def execRti (s : State) : Result := .next (raiseFatal .reservedOpcode s.ir s)

/-- RES (R108). -/
def execRes (s : State) : Result := .next (raiseFatal .reservedOpcode s.ir s)

end Sys2Proof.Machine
end

