-- ==== Sys2Proof/Machine/Trap.lean ====
section
/-! DEFINITION. The trap vector dispatch and the six console services (spec 44_trap.md). A TRAP is a service call inside one
step: it saves nothing, reads no memory to find its service, writes no register but R0, and leaves COND and PC (R93, R111).
A GETC or IN that finds no character holds in `ConIn()` (40_dispatch.md R70), and a PUTS or PUTSP over a memory with no
terminating cell never completes (R101, R103, U9): `Phase` holds which part of the step is left. -/

namespace Sys2Proof.Machine

/-! ## Input -/

/-- `c <- ConIn(); x[0] <- zext_16(c)`: the last part of GETC and IN. With no character to be had the block holds in
`ConIn()` with R0 not written (R70); the same operation, run again once the host has supplied one, lifts the hold. -/
def inputToR0 (s : State) : State :=
  match conIn s with
  | some (c, s') => { s'.setReg 0 (zext16 c) with phase := .ready }
  | none => { s with phase := .inputHold }

/-- GETC's service (R99): no echo, no flush. -/
def serviceGetc (s : State) : State := inputToR0 s

/-- IN's prompt, the characters '>' and ' ' in ASCII (R102, D10). -/
def inPrompt : List Byte := [0x3E, 0x20]

/-- IN's service (R102): the prompt and its flush, then the read; no echo. -/
def serviceIn (s : State) : State := inputToR0 (conFlush (conOutAll inPrompt s))

/-! ## Output -/

/-- OUT's service (R100): the low byte of R0, then a flush. -/
def serviceOut (s : State) : State := conFlush (conOut (lowByte (s.reg 0)) s)

/-- The scan of a string service over at most `fuel` cells from address `a`, upward modulo 2^16 (R48, R101, R103): the
characters of the cells before the first one that `stop` accepts, and whether there was one. -/
def scanCells (m : Memory) (stop : Word → Bool) (chars : Word → List Byte) : Nat → Word → List Byte × Bool
  | 0, _ => ([], false)
  | fuel + 1, a =>
    if stop (m.read a) then ([], true)
    else
      let r := scanCells m stop chars fuel (a + 1)
      (chars (m.read a) ++ r.1, r.2)

/-- A string service from the address in R0. One scan of all 65,536 cells finds the terminating cell if there is one; then
the characters and one flush go out and the step completes. If there is none, the scan is back where it began: the characters
of the round go out, nothing is flushed, and the block stays inside the step, for ever (D13, U9; log entry 7). -/
def serviceString (stop : Word → Bool) (chars : Word → List Byte) (loop : Phase) (s : State) : State :=
  let r := scanCells s.mem stop chars Config.memSize (s.reg 0)
  if r.2 then { conFlush (conOutAll r.1 s) with phase := .ready }
  else { conOutAll r.1 s with phase := loop }

/-- PUTS ends at a cell that is zero as a whole (R101). -/
def putsStop (w : Word) : Bool := w == 0

/-- PUTS writes the low byte of every other cell (R101). -/
def putsChars (w : Word) : List Byte := [lowByte w]

/-- PUTSP ends at a cell whose low byte is zero (R103). -/
def putspStop (w : Word) : Bool := lowByte w == 0

/-- PUTSP writes the low byte, then the high byte if it is not zero (R103). -/
def putspChars (w : Word) : List Byte :=
  lowByte w :: (if highByte w = 0 then [] else [highByte w])

/-- PUTS's service (R101). -/
def servicePuts (s : State) : State := serviceString putsStop putsChars .putsLoop s

/-- PUTSP's service (R103). -/
def servicePutsp (s : State) : State := serviceString putspStop putspChars .putspLoop s

/-! ## Halt -/

/-- HALT's text "Stopped." and a newline, in ASCII (R104, D10). -/
def haltText : List Byte := [0x53, 0x74, 0x6F, 0x70, 0x70, 0x65, 0x64, 0x2E, 0x0A]

/-- HALT's service (R104): the text, a flush (D12), Halted. -/
def serviceHalt (s : State) : State := halt (conFlush (conOutAll haltText s))

/-! ## Dispatch -/

/-- The trap vector dispatch (R93). Any other vector is the fatal error UnknownTrap, recording the vector (R105). -/
def dispatchTrap (v : BitVec 8) (s : State) : State :=
  match v.toNat with
  | 0x20 => serviceGetc s
  | 0x21 => serviceOut s
  | 0x22 => servicePuts s
  | 0x23 => serviceIn s
  | 0x24 => servicePutsp s
  | 0x25 => serviceHalt s
  | _ => raiseFatal .unknownTrap (zext16 v) s

/-- GETC (R99). -/
def execGetc (s : State) : Result := .next (serviceGetc s)

/-- OUT (R100). -/
def execOut (s : State) : Result := .next (serviceOut s)

/-- PUTS (R101). -/
def execPuts (s : State) : Result := .next (servicePuts s)

/-- IN (R102). -/
def execIn (s : State) : Result := .next (serviceIn s)

/-- PUTSP (R103). -/
def execPutsp (s : State) : Result := .next (servicePutsp s)

/-- HALT (R104). -/
def execHalt (s : State) : Result := .next (serviceHalt s)

/-- The generic TRAP: the dispatch of R93 on any of the 256 vectors. -/
def execTrap (v : BitVec 8) (s : State) : Result := .next (dispatchTrap v s)

end Sys2Proof.Machine
end

