-- ==== Sys2Proof/Machine/Cycle.lean ====
section
/-! DEFINITION. What one step does in each run state and phase (spec 40_dispatch.md). Step.lean only chooses among these. -/

namespace Sys2Proof.Machine

/-- Decode and dispatch of the fetched word (R67); the defensive arm raises UnknownOpcode (R112, code 1). -/
def dispatch (s : State) : Result :=
  match decodeWord s.ir with
  | .ok i => exec i s
  | .error _ => .next (raiseFatal .unknownOpcode s.ir s)

/-- One instruction: fetch, increment, decode, the handler (R64). -/
def instructionStep (s : State) : Result := dispatch (fetch s)

/-- The transition of a Running block: a new instruction, or the part that is left of the one it is inside of (R70, U9).
A hold with no character to be had stays as it is. -/
def runningStep (s : State) : Result :=
  match s.phase with
  | .ready => instructionStep s
  | .inputHold => .next (inputToR0 s)
  | .putsLoop => .next (servicePuts s)
  | .putspLoop => .next (servicePutsp s)

/-- The only transition out of PreRun is the start operation (R61, R62), which the host calls once (R132); log entry 10. -/
def preRunStep (s : State) : Result := .next (start s)

/-- Halted is terminal: nothing changes any more (R61, R69). -/
def haltedStep (s : State) : Result := .next s

/-- The state in which the word `w` stands where the next step fetches: Running, between steps, PC at the origin if the
machine was not started yet. -/
def placeFetchWord (w : Word) (s : State) : State :=
  let s' := { start s with runState := .running, phase := .ready }
  s'.memWrite s'.pc w

end Sys2Proof.Machine
end

