-- ==== Sys2Proof/Machine/Step.lean ====
section
/-! DEFINITION. One transition of the block (spec 40_dispatch.md R61, R64, R70, R72). -/

namespace Sys2Proof.Machine

/-- One transition: the start operation in PreRun, a step of R64 (or the rest of one) in Running, nothing in Halted. -/
def step (s : State) : Host.Outcome State Fault Refusal :=
  match s.runState with
  | .preRun => preRunStep s
  | .running => runningStep s
  | .halted => haltedStep s

/-- `s` with the instruction whose word the opcode table numbers `w` placed where the next step fetches. It stands for the
load of a program from outside the machine (R126; log entry 10). -/
def State.withFetchWord (s : State) (nbits w : Nat) : State := placeFetchWord (tableWord nbits w) s

end Sys2Proof.Machine
end

