-- ==== Sys2Proof/Machine/Boot.lean ====
section
/-! DEFINITION. What the host may do to the block (spec 70_reset_and_hazards.md R132), each as an operation on its state,
outside `step`: the loader's contract before start (R124 to R127) and supplying console input at any time. Start is
`Machine.start`; the outputs are `consoleOut`, `runState` and `fatal` themselves. -/

namespace Sys2Proof.Machine

/-- The words of a program image: two bytes a word, low byte first (R127). An odd last byte is no word, and what a loader
does with it is not given: such an image is refused (U19). -/
def imageWords : List Byte → Option (List Word)
  | [] => some []
  | [_] => none
  | b0 :: b1 :: rest => (imageWords rest).map (wordOfBytes b0 b1 :: ·)

/-- Consecutive words written from an address upward. -/
def storeWords : Word → List Word → Memory → Memory
  | _, [], m => m
  | a, w :: rest, m => storeWords (a + 1) rest (m.write a w)

/-- The number of words from the origin to the top of the address space, 0xD000 (U19). -/
def imageRoom : Nat := Config.memSize - Config.origin.toNat

/-- The loader: the image's words fill consecutive cells from 0x3000 upward (R127), in PreRun only (R126, R132). After start
the host has no such move, and an image that does not fit is refused (U17, U19). -/
def loadWords (ws : List Word) (s : State) : Option State :=
  match s.runState with
  | .preRun => if ws.length ≤ imageRoom then some { s with mem := storeWords Config.origin ws s.mem } else none
  | .running => none
  | .halted => none

/-- Loading an image of bytes. -/
def loadImage (bytes : List Byte) (s : State) : Option State :=
  match imageWords bytes with
  | some ws => loadWords ws s
  | none => none

/-- The loader's write of any one cell (R132, Load: "write any memory cells in PreRun"). -/
def loadCell (a v : Word) (s : State) : Option State :=
  match s.runState with
  | .preRun => some (s.memWrite a v)
  | .running => none
  | .halted => none

/-- The host supplies characters, in any amount and at any time (R132, Input). -/
def supplyInput (cs : List Byte) (s : State) : State := { s with consoleIn := s.consoleIn ++ cs }

end Sys2Proof.Machine
end

