-- ==== Sys2Proof/Safety.lean ====
section
/-! DEFINITION. The terms in which statements speak of the machine: what an instruction leaves alone, the streams of the
output trace, and the properties that every step keeps. -/

namespace Sys2Proof.Machine

/-! ## Frames -/

/-- Every general register reads as before. -/
def SameRegs (s t : State) : Prop := ∀ r : Reg, t.reg r = s.reg r

/-- Every cell of memory reads as before. -/
def SameMemory (s t : State) : Prop := ∀ a : Word, t.memRead a = s.memRead a

/-- Neither stream of the console moved. -/
def SameConsole (s t : State) : Prop := t.consoleIn = s.consoleIn ∧ t.consoleOut = s.consoleOut

/-- The run state, the fatal status, the phase and the instruction register are as before. -/
def SameStatus (s t : State) : Prop :=
  t.runState = s.runState ∧ t.fatal = s.fatal ∧ t.phase = s.phase ∧ t.ir = s.ir

/-- What a flag-affecting instruction does: `v` in DR, COND set from `v`, and nothing else changed (R22, R25). -/
def OnlyResult (s t : State) (dr : Reg) (v : Word) : Prop :=
  (∀ r : Reg, t.reg r = if r = dr then v else s.reg r) ∧ t.cond = condOf v ∧ t.pc = s.pc ∧
    SameMemory s t ∧ SameConsole s t ∧ SameStatus s t

/-- What a store does: `v` in the cell `a`, and nothing else changed. -/
def OnlyStored (s t : State) (a v : Word) : Prop :=
  t.memRead a = v ∧ (∀ b : Word, b ≠ a → t.memRead b = s.memRead b) ∧
    SameRegs s t ∧ t.cond = s.cond ∧ t.pc = s.pc ∧ SameConsole s t ∧ SameStatus s t

/-- What a fatal error does (R113): the diagnostic, FATAL, Halted, and nothing else changed. -/
def OnlyFatal (s t : State) (r : FatalRecord) : Prop :=
  t.consoleOut = s.consoleOut ++ [.err r] ∧ t.fatal = some r ∧ t.runState = .halted ∧
    SameRegs s t ∧ t.cond = s.cond ∧ t.pc = s.pc ∧ SameMemory s t ∧
    t.consoleIn = s.consoleIn ∧ t.phase = s.phase ∧ t.ir = s.ir

/-- What a service that only writes characters does: it appends `evs` to the trace, the step is over, and nothing else
changed. -/
def OnlyOutput (s t : State) (evs : List ConEvent) : Prop :=
  t.consoleOut = s.consoleOut ++ evs ∧ SameRegs s t ∧ t.cond = s.cond ∧ t.pc = s.pc ∧ SameMemory s t ∧
    t.consoleIn = s.consoleIn ∧ t.runState = s.runState ∧ t.fatal = s.fatal ∧ t.ir = s.ir

/-- The address an instruction stores to, from the state it runs in (R37): only ST, STI and STR store. -/
def storeAddress (i : Instr) (s : State) : Option Word :=
  match i with
  | .st _ off => some (eaPc9 off s)
  | .sti _ off => some (eaInd off s)
  | .str _ base off => some (eaBase6 base off s)
  | _ => none

/-- The register whose value an instruction stores (R14, R37): SR of ST, STI and STR. -/
def storedReg (i : Instr) : Option Reg :=
  match i with
  | .st r _ | .sti r _ | .str r _ _ => some r
  | _ => none

/-- The general registers an instruction writes (R14, last column). -/
def writtenRegs (i : Instr) : List Reg :=
  match i with
  | .addReg d _ _ | .addImm d _ _ | .andReg d _ _ | .andImm d _ _ | .not d _ => [d]
  | .ld d _ | .ldi d _ | .ldr d _ _ | .lea d _ => [d]
  | .jsr _ | .jsrr _ => [7]
  | .getc | .inp => [0]
  | .trap v => if v = 0x20 ∨ v = 0x23 then [0] else []
  | _ => []

/-- The destination of a flag-affecting instruction: exactly ADD, AND, NOT, LD, LDI, LDR, LEA (R22). -/
def flagDest (i : Instr) : Option Reg :=
  match i with
  | .addReg d _ _ | .addImm d _ _ | .andReg d _ _ | .andImm d _ _ | .not d _ => some d
  | .ld d _ | .ldi d _ | .ldr d _ _ | .lea d _ => some d
  | _ => none

/-! ## The output trace -/

/-- The characters of the primary output stream (R96), in order. -/
def primaryOutput (evs : List ConEvent) : List Byte :=
  evs.filterMap fun e => match e with
    | .out c => some c
    | .flush => none
    | .err _ => none

/-- The diagnostics (R98), in order. -/
def diagnostics (evs : List ConEvent) : List FatalRecord :=
  evs.filterMap fun e => match e with
    | .out _ => none
    | .flush => none
    | .err r => some r

/-- The characters written and not yet flushed after a trace, `pending` being those before it (R97). -/
def unflushedAfter (pending : List Byte) : List ConEvent → List Byte
  | [] => pending
  | .out c :: rest => unflushedAfter (pending ++ [c]) rest
  | .flush :: rest => unflushedAfter [] rest
  | .err _ :: rest => unflushedAfter pending rest

/-! ## What every step keeps -/

/-- COND holds no flag or exactly one: the values 011, 101, 110 and 111 never occur (R24). -/
def legalCond (c : BitVec 3) : Prop := c = condNONE ∨ c = condNEG ∨ c = condZRO ∨ c = condPOS

/-- COND holds exactly one flag (R21). -/
def oneFlag (c : BitVec 3) : Prop := c = condNEG ∨ c = condZRO ∨ c = condPOS

/-- The machine's invariant. -/
structure State.Inv (s : State) : Prop where
  /-- Memory is in its canonical form. -/
  memCanonical : s.mem.wf
  /-- COND is legal (R24). -/
  condLegal : legalCond s.cond
  /-- A fatal status stands only in a Halted block (R113). -/
  fatalIsHalted : ∀ r, s.fatal = some r → s.runState = .halted
  /-- Only a Running block is inside a step (R70, R122). -/
  midStepIsRunning : s.phase ≠ .ready → s.runState = .running
  /-- One diagnostic for each fatal error, and no other (R98, R109). -/
  diagnosticsAreFatal : diagnostics s.consoleOut = s.fatal.toList

/-- A fatal record of a kind R112 calls reachable: ReservedOpcode with the word of an RTI or RES, or UnknownTrap with a vector
that names no service. -/
def FatalRecord.caused (r : FatalRecord) : Prop :=
  match r.reason with
  | .reservedOpcode => handlerOf (opField r.info) = some .rti ∨ handlerOf (opField r.info) = some .res
  | .unknownTrap => ∃ v : BitVec 8, isServiceVector v = false ∧ r.info = zext16 v
  | .unknownOpcode => False
  | .outOfBounds => False

/-- FATAL holds nothing or a reachable record (R112). -/
def State.FatalCaused (s : State) : Prop := ∀ r, s.fatal = some r → r.caused

/-- Outside an unending string scan no character stands written and unflushed: not at a hold in `ConIn()`, not in Halted, not
between steps (R106). -/
def State.OutputFlushed (s : State) : Prop :=
  s.phase = .ready ∨ s.phase = .inputHold → unflushedAfter [] s.consoleOut = []

end Sys2Proof.Machine
end

