-- ==== Sys2Proof/Certificates/Slice0/Obligations.lean ====
section
/-! DEFINITION. The statements for the provers. Each docstring names the rules of spec/ it rests on. Unless a statement is
about `step`, the state `s` is the one a handler runs in: IR is the fetched word and PC the incremented one (R17). -/

open Sys2Proof Sys2Proof.Machine

/-! ## Encoding and decoding -/

/-- Decoding the encoding of a well-formed instruction gives it back, with every operand at every value of its field, and
for EVERY opcode assignment OPCODE_OF that a handler table inverts, the table of R49 among them (R49, R52, D1). The values
of R49's table are the spec's decision D1 (log entry 1). -/
def Obligations.DecodeOfEncodeIsTheInstruction : Prop :=
  (∀ (opc : Opcode → BitVec 4) (handler : BitVec 4 → Option Opcode), (∀ o, handler (opc o) = some o) →
    ∀ i : Instr, i.wellFormed = true → decodeWith handler (encodeWith opc i) = .ok i) ∧
  ∀ i : Instr, i.wellFormed = true → decodeWord (encode i) = .ok i

/-- Every 16-bit word decodes, to a well-formed instruction whose own word is that word with its unread bits cleared: no bit
that R52 gives a field is dropped, and the defensive arm of R67 is never reached (R49, R52, R56, R57; the opcode values are
decision D1, log entry 1, and the unread bits decision D6, log entry 12). -/
def Obligations.EveryWordDecodesAndReencodes : Prop :=
  ∀ w : Word, ∃ i, decodeWord w = .ok i ∧ i.wellFormed = true ∧ encode i = w &&& ~~~ unreadBits i

/-- Two words that differ only in bits the handler does not read are the same instruction (R56; decision D6, log entry 12). -/
def Obligations.UnreadBitsDoNotChangeTheInstruction : Prop :=
  ∀ (w w' : Word) (i : Instr), decodeWord w = .ok i → w' &&& ~~~ unreadBits i = w &&& ~~~ unreadBits i →
    decodeWord w' = .ok i

/-- Whatever the opcode assignment, the opcode `ir[15:12]` selects the handler (R49), each handler cuts its fields at fixed
positions (registers R50, condMask R51, immediates and offsets R54, the vector R55, the six services R93), and only ADD, AND
and opcode JSR have a mode bit, `ir[5]` and `ir[11]` (R53). That a word is its instruction whatever the bits hold that its
handler does not read (R56) is decision D6 (log entry 12). -/
def Obligations.HandlersCutTheirFieldsAtFixedBits : Prop :=
  ∀ (handler : BitVec 4 → Option Opcode) (ir : Word) (o : Opcode), handler (ir.extractLsb 15 12) = some o →
    decodeWith handler ir = .ok (
      let dr : Reg := (ir.extractLsb 11 9).toFin
      let sr1 : Reg := (ir.extractLsb 8 6).toFin
      let sr2 : Reg := (ir.extractLsb 2 0).toFin
      match o with
      | .add => if ir.getLsbD 5 then .addImm dr sr1 (ir.extractLsb 4 0) else .addReg dr sr1 sr2
      | .and => if ir.getLsbD 5 then .andImm dr sr1 (ir.extractLsb 4 0) else .andReg dr sr1 sr2
      | .not => .not dr sr1
      | .ld => .ld dr (ir.extractLsb 8 0)
      | .ldi => .ldi dr (ir.extractLsb 8 0)
      | .ldr => .ldr dr sr1 (ir.extractLsb 5 0)
      | .lea => .lea dr (ir.extractLsb 8 0)
      | .st => .st dr (ir.extractLsb 8 0)
      | .sti => .sti dr (ir.extractLsb 8 0)
      | .str => .str dr sr1 (ir.extractLsb 5 0)
      | .br => .br (ir.extractLsb 11 9) (ir.extractLsb 8 0)
      | .jmp => .jmp sr1
      | .jsr => if ir.getLsbD 11 then .jsr (ir.extractLsb 10 0) else .jsrr sr1
      | .trap =>
        if ir.extractLsb 7 0 = 0x20 then .getc else if ir.extractLsb 7 0 = 0x21 then .out
        else if ir.extractLsb 7 0 = 0x22 then .puts else if ir.extractLsb 7 0 = 0x23 then .inp
        else if ir.extractLsb 7 0 = 0x24 then .putsp else if ir.extractLsb 7 0 = 0x25 then .halt
        else .trap (ir.extractLsb 7 0)
      | .rti => .rti
      | .res => .res)

/-- OPCODE_OF has the values of R49's table, and the handler table is its inverse on all 16 values. The values are the spec's
own decision D1, from general knowledge of the LC-3 (log entry 1). -/
def Obligations.OpcodeValuesAreTheTableOfR49 : Prop :=
  opcodeOf .br = 0x0 ∧ opcodeOf .add = 0x1 ∧ opcodeOf .ld = 0x2 ∧ opcodeOf .st = 0x3 ∧ opcodeOf .jsr = 0x4 ∧
    opcodeOf .and = 0x5 ∧ opcodeOf .ldr = 0x6 ∧ opcodeOf .str = 0x7 ∧ opcodeOf .rti = 0x8 ∧ opcodeOf .not = 0x9 ∧
    opcodeOf .ldi = 0xA ∧ opcodeOf .sti = 0xB ∧ opcodeOf .jmp = 0xC ∧ opcodeOf .res = 0xD ∧ opcodeOf .lea = 0xE ∧
    opcodeOf .trap = 0xF ∧ (∀ o, handlerOf (opcodeOf o) = some o) ∧ ∀ v : BitVec 4, ∃ o, opcodeOf o = v

/-- Words the spec writes out beside their assembly, one or more of every family (R74 to R78, R80, R82, R85, R88 to R91, R102,
R105, R108). Their opcode values are the spec's decision D1 and the letters of 0x0405 its decision D2, both from general
knowledge of the LC-3 (log entry 1). -/
def Obligations.WordsWrittenInTheSpecDecode : Prop :=
  decodeWord 0x1401 = .ok (.addReg 2 0 1) ∧ decodeWord 0x103F = .ok (.addImm 0 0 0b11111) ∧
    decodeWord 0x5242 = .ok (.andReg 1 1 2) ∧ decodeWord 0x923F = .ok (.not 1 0) ∧
    decodeWord 0x2207 = .ok (.ld 1 7) ∧ decodeWord 0x6B06 = .ok (.ldr 5 4 6) ∧ decodeWord 0xB606 = .ok (.sti 3 6) ∧
    decodeWord 0x0405 = .ok (.br 0b010 5) ∧ decodeWord 0x4810 = .ok (.jsr 0x10) ∧ decodeWord 0x4080 = .ok (.jsrr 2) ∧
    decodeWord 0xC1C0 = .ok (.jmp 7) ∧ decodeWord 0xF023 = .ok .inp ∧ decodeWord 0xF099 = .ok (.trap 0x99) ∧
    decodeWord 0xD123 = .ok .res

/-! ## Shared operations -/

/-- Sign extension of R8 at its four widths: the OR with `0xFFFF << N` when the field's highest bit is set, which is
two's-complement sign extension; and zero extension of a byte. -/
def Obligations.SignExtensionIsTwosComplement : Prop :=
  (∀ v : BitVec 5, sext v = (if v.getLsbD 4 then v.setWidth 16 ||| ((0xFFFF : Word) <<< 5) else v.setWidth 16) ∧
    (sext v).toInt = v.toInt) ∧
  (∀ v : BitVec 6, sext v = (if v.getLsbD 5 then v.setWidth 16 ||| ((0xFFFF : Word) <<< 6) else v.setWidth 16) ∧
    (sext v).toInt = v.toInt) ∧
  (∀ v : BitVec 9, sext v = (if v.getLsbD 8 then v.setWidth 16 ||| ((0xFFFF : Word) <<< 9) else v.setWidth 16) ∧
    (sext v).toInt = v.toInt) ∧
  (∀ v : BitVec 11, sext v = (if v.getLsbD 10 then v.setWidth 16 ||| ((0xFFFF : Word) <<< 11) else v.setWidth 16) ∧
    (sext v).toInt = v.toInt) ∧
  ∀ b : Byte, (zext16 b).extractLsb 7 0 = b ∧ (zext16 b).extractLsb 15 8 = 0

/-- The flag update of R20: NEG if bit 15 is set, ZRO if the value is zero, POS otherwise, the other two flags clear, and
nothing but COND written. -/
def Obligations.FlagUpdateSetsExactlyOneFlag : Prop :=
  ∀ (v : Word) (s : State),
    (v.getLsbD 15 = true → (setcc v s).cond = condNEG) ∧
    (v = 0 → (setcc v s).cond = condZRO) ∧
    (v.getLsbD 15 = false → v ≠ 0 → (setcc v s).cond = condPOS) ∧
    SameRegs s (setcc v s) ∧ (setcc v s).pc = s.pc ∧ SameMemory s (setcc v s) ∧ SameConsole s (setcc v s) ∧
    SameStatus s (setcc v s)

/-- A write of memory reads back, and every other cell reads as before (R35). -/
def Obligations.MemoryWriteReadsBackAndChangesNoOtherCell : Prop :=
  ∀ (s : State) (a v : Word),
    (s.memWrite a v).memRead a = v ∧ ∀ b : Word, b ≠ a → (s.memWrite a v).memRead b = s.memRead b

/-- Memories in canonical form that read the same at every address are the same data (the model's own representation, log
entry 6). -/
def Obligations.CanonicalMemoriesAreDeterminedByTheirReads : Prop :=
  ∀ m n : Memory, m.wf → n.wf → (∀ a : Word, m.read a = n.read a) → m = n

/-- The three addresses of R79, sums modulo 2^16 over sign-extended offsets. -/
def Obligations.AddressGeneratorFormsThreeAddresses : Prop :=
  ∀ (s : State) (off9 : BitVec 9) (base : Reg) (off6 : BitVec 6),
    eaPc9 off9 s = s.pc + off9.signExtend 16 ∧
    eaBase6 base off6 s = s.reg base + off6.signExtend 16 ∧
    eaInd off9 s = s.memRead (s.pc + off9.signExtend 16)

/-- The fatal entry of R113: one diagnostic, FATAL, Halted; no register, COND, PC or memory cell changes, and nothing is
written to the primary output (D23; the record held as state is D15; log entry 15). -/
def Obligations.FatalEntryRecordsAndHalts : Prop :=
  ∀ (q : FatalReason) (w : Word) (s : State), OnlyFatal s (raiseFatal q w s) ⟨q, w⟩

/-! ## Reset, start and the run states -/

/-- The state after reset (R32), whatever COND_RESET, MEM_INIT and CONSOLE_IN are: registers zero, PreRun, no fatal status.
`State.reset` is that state at the model's defaults: COND NONE (D4, log entry 2), no cell listed (log entry 4), no input
supplied yet (log entry 5). FATAL held as state is decision D15 (log entry 15), MEM_INIT as a parameter decision D16. -/
def Obligations.ResetStateIsThatOfR32 : Prop :=
  (∀ (c : BitVec 3) (m : Memory) (inp : List Byte),
    (∀ r : Reg, (State.resetWith c m inp).reg r = 0) ∧ (State.resetWith c m inp).cond = c ∧
    (State.resetWith c m inp).mem = m ∧ (State.resetWith c m inp).consoleIn = inp ∧
    (State.resetWith c m inp).runState = .preRun ∧ (State.resetWith c m inp).fatal = none ∧
    (State.resetWith c m inp).phase = .ready ∧ (State.resetWith c m inp).consoleOut = []) ∧
  State.reset = State.resetWith condNONE Memory.empty []

/-- The start operation in PreRun: Running, PC at the origin, and nothing else changed (R62). -/
def Obligations.StartRunsFromTheOrigin : Prop :=
  ∀ s : State, s.runState = .preRun →
    (start s).runState = .running ∧ (start s).pc = 0x3000 ∧ SameRegs s (start s) ∧ (start s).cond = s.cond ∧
    SameMemory s (start s) ∧ SameConsole s (start s) ∧ (start s).fatal = s.fatal ∧ (start s).phase = s.phase ∧
    (start s).ir = s.ir

/-- RUNSTATE moves only along R61's transitions, and a start outside PreRun has no effect (D17, log entry 17). That the model's step out of
PreRun IS the start operation, and that a step in Halted answers the same state, is the model's choice (log entry 10). -/
def Obligations.RunStateMovesOnlyAlongR61 : Prop :=
  (∀ s t : State, step s = .next t →
    (s.runState = .preRun → t = start s ∧ t.runState = .running) ∧
    (s.runState = .running → t.runState = .running ∨ t.runState = .halted) ∧
    (s.runState = .halted → t = s)) ∧
  ∀ s : State, s.runState ≠ .preRun → start s = s

/-- A Halted block does nothing any more, however long it is run: no fetch, memory access, register write or console
operation (R69). The spec has no step there at all; that a Halted step answers a next state, the same one, is the model's
choice (log entry 10). -/
def Obligations.HaltedBlockChangesNothingEver : Prop :=
  ∀ (s : State) (k : Nat), s.runState = .halted → Sys2Proof.core.run k s = .next s

/-- A step of a Running block between instructions is the fetched word's instruction, run with IR holding that word and PC
incremented (R64). -/
def Obligations.StepRunsTheDecodedInstruction : Prop :=
  ∀ (s : State) (i : Instr), s.runState = .running → s.phase = .ready → decodeWord (s.memRead s.pc) = .ok i →
    step s = exec i { s with ir := s.memRead s.pc, pc := s.pc + 1 }

/-- Only HALT and the fatal errors halt (R63), and only RTI, RES and a TRAP with an unknown vector are fatal (R57, R112).
FATAL held as state is decision D15 (log entry 15). -/
def Obligations.OnlyHaltAndFatalErrorsHalt : Prop :=
  ∀ (i : Instr) (s t : State), exec i s = .next t →
    (t.runState ≠ s.runState →
      i = .halt ∨ i = .trap 0x25 ∨ i = .rti ∨ i = .res ∨ ∃ v, i = .trap v ∧ isServiceVector v = false) ∧
    (t.fatal ≠ s.fatal → i = .rti ∨ i = .res ∨ ∃ v, i = .trap v ∧ isServiceVector v = false)

/-- No instruction and no step ends in a fault or a refusal. This is the model's choice: the spec gives the fatal error an
effect (R113), which the model takes as a next state, its type of faults being empty (log entry 20); and where the spec has no
enabled step or none that completes, `step` still answers a next state: the start operation in PreRun and the same state in
Halted (log entry 10), the same state in an input hold with no character (R70; log entry 14), and one more round of memory in
a string scan without end (R101, R103, U9; log entry 7). -/
def Obligations.EveryStepHasANextState : Prop :=
  (∀ (i : Instr) (s : State), ∃ t, exec i s = .next t) ∧ ∀ s : State, ∃ t, step s = .next t

/-! ## Operate instructions -/

/-- ADD, both forms: the sum modulo 2^16 of the sources as they were before DR is written, and its flags (R73, R74, R75). -/
def Obligations.AddWritesTheSumAndItsFlags : Prop :=
  ∀ (s : State) (dr sr1 sr2 : Reg) (imm : BitVec 5),
    (∃ t, exec (.addReg dr sr1 sr2) s = .next t ∧ OnlyResult s t dr (s.reg sr1 + s.reg sr2)) ∧
    ∃ t, exec (.addImm dr sr1 imm) s = .next t ∧ OnlyResult s t dr (s.reg sr1 + imm.signExtend 16)

/-- AND, both forms, and NOT: bitwise conjunction and 16-bit complement, and their flags (R76, R77, R78). -/
def Obligations.AndAndNotWriteTheirResultAndItsFlags : Prop :=
  ∀ (s : State) (dr sr1 sr2 : Reg) (imm : BitVec 5),
    (∃ t, exec (.andReg dr sr1 sr2) s = .next t ∧ OnlyResult s t dr (s.reg sr1 &&& s.reg sr2)) ∧
    (∃ t, exec (.andImm dr sr1 imm) s = .next t ∧ OnlyResult s t dr (s.reg sr1 &&& imm.signExtend 16)) ∧
    ∃ t, exec (.not dr sr1) s = .next t ∧ OnlyResult s t dr (~~~ s.reg sr1)

/-! ## Loads and stores -/

/-- LD, LDI and LDR: the word at their address, and its flags (R80, R81, R82). -/
def Obligations.LoadsWriteTheLoadedWordAndItsFlags : Prop :=
  ∀ (s : State) (dr base : Reg) (off9 : BitVec 9) (off6 : BitVec 6),
    (∃ t, exec (.ld dr off9) s = .next t ∧ OnlyResult s t dr (s.memRead (s.pc + off9.signExtend 16))) ∧
    (∃ t, exec (.ldi dr off9) s = .next t ∧
      OnlyResult s t dr (s.memRead (s.memRead (s.pc + off9.signExtend 16)))) ∧
    ∃ t, exec (.ldr dr base off6) s = .next t ∧ OnlyResult s t dr (s.memRead (s.reg base + off6.signExtend 16))

/-- LEA: the address itself, and the flags of the address (R83). -/
def Obligations.LeaWritesTheAddressAndItsFlags : Prop :=
  ∀ (s : State) (dr : Reg) (off9 : BitVec 9),
    ∃ t, exec (.lea dr off9) s = .next t ∧ OnlyResult s t dr (s.pc + off9.signExtend 16)

/-- ST, STI and STR: SR in the cell at their address, no other cell and no flag changed; STI reads its pointer before the
write (R84, R85, R86). -/
def Obligations.StoresWriteOneCell : Prop :=
  ∀ (s : State) (sr base : Reg) (off9 : BitVec 9) (off6 : BitVec 6),
    (∃ t, exec (.st sr off9) s = .next t ∧ OnlyStored s t (eaPc9 off9 s) (s.reg sr)) ∧
    (∃ t, exec (.sti sr off9) s = .next t ∧ OnlyStored s t (eaInd off9 s) (s.reg sr)) ∧
    ∃ t, exec (.str sr base off6) s = .next t ∧ OnlyStored s t (eaBase6 base off6 s) (s.reg sr)

/-! ## Control transfer -/

/-- BR: PC moves by the sign-extended offset when the mask selects a flag that is set, and nothing else changes (R87, R88).
That condMask and COND have one layout is decisions D2 and D3 (log entries 1 and 2). -/
def Obligations.BranchIsTakenWhenTheMaskSelectsASetFlag : Prop :=
  ∀ (s : State) (mask : BitVec 3) (off9 : BitVec 9),
    ∃ t, exec (.br mask off9) s = .next t ∧
      t.pc = (if mask &&& s.cond ≠ 0 then s.pc + off9.signExtend 16 else s.pc) ∧
      SameRegs s t ∧ t.cond = s.cond ∧ SameMemory s t ∧ SameConsole s t ∧ SameStatus s t

/-- Which flag each letter of a BR tests: n (bit 2) NEG, z (bit 1) ZRO, p (bit 0) POS, and none when COND is NONE. The bit
order is the spec's decision D2, from general knowledge of the LC-3 (log entry 1). COND's layout is decision D3 (log entry
2). -/
def Obligations.BranchLettersTestTheirFlags : Prop :=
  ∀ mask : BitVec 3,
    condTaken mask condNEG = mask.getLsbD 2 ∧ condTaken mask condZRO = mask.getLsbD 1 ∧
    condTaken mask condPOS = mask.getLsbD 0 ∧ condTaken mask condNONE = false

/-- JMP goes to the address in BaseR and changes nothing else; RET is JMP R7 (R89; no flags, D5, log entry 8). -/
def Obligations.JumpGoesToTheBaseRegister : Prop :=
  ∀ (s : State) (base : Reg),
    ∃ t, exec (.jmp base) s = .next t ∧ t.pc = s.reg base ∧
      SameRegs s t ∧ t.cond = s.cond ∧ SameMemory s t ∧ SameConsole s t ∧ SameStatus s t

/-- JSR and JSRR link in R7 and jump; JSRR reads its base after that write, so JSRR R7 continues at the next instruction (R90,
R91; U6, log entry 9; no flags, D5, log entry 8). -/
def Obligations.SubroutineCallsLinkInR7 : Prop :=
  ∀ (s : State) (off11 : BitVec 11) (base : Reg),
    (∃ t, exec (.jsr off11) s = .next t ∧ t.pc = s.pc + off11.signExtend 16 ∧
      (∀ r : Reg, t.reg r = if r = 7 then s.pc else s.reg r) ∧
      t.cond = s.cond ∧ SameMemory s t ∧ SameConsole s t ∧ SameStatus s t) ∧
    ∃ t, exec (.jsrr base) s = .next t ∧ t.pc = (if base = 7 then s.pc else s.reg base) ∧
      (∀ r : Reg, t.reg r = if r = 7 then s.pc else s.reg r) ∧
      t.cond = s.cond ∧ SameMemory s t ∧ SameConsole s t ∧ SameStatus s t

/-! ## Traps and the console -/

/-- OUT writes the low byte of R0, then flushes (R100). The 8-bit character is decision D9 (log entry 13), the trace of
events decision D21 (log entry 21). -/
def Obligations.OutWritesTheLowByteAndFlushes : Prop :=
  ∀ s : State, ∃ t, exec .out s = .next t ∧
    OnlyOutput s t [.out ((s.reg 0).extractLsb 7 0), .flush] ∧ t.phase = s.phase

/-- PUTS over a string whose first zero cell is `n` cells from the address in R0 writes the low byte of each cell before it,
then flushes; the scan wraps at the top of memory (R101, D13, log entry 7). The 8-bit character is decision D9 (log entry
13), the trace of events decision D21 (log entry 21). -/
def Obligations.PutsWritesTheCellsBeforeTheFirstZeroCell : Prop :=
  ∀ (s : State) (n : Nat),
    (∀ k, k < n → s.memRead (s.reg 0 + BitVec.ofNat 16 k) ≠ 0) → s.memRead (s.reg 0 + BitVec.ofNat 16 n) = 0 →
    ∃ t, exec .puts s = .next t ∧ t.phase = .ready ∧
      OnlyOutput s t (((List.range n).map fun k =>
        ConEvent.out ((s.memRead (s.reg 0 + BitVec.ofNat 16 k)).extractLsb 7 0)) ++ [.flush])

/-- PUTSP over a string whose first cell with a zero low byte is `n` cells from the address in R0 writes the low byte and,
if it is not zero, the high byte of each cell before it, then flushes (R103, D13, log entry 7). The 8-bit character is
decision D9 (log entry 13), the trace of events decision D21 (log entry 21). -/
def Obligations.PutspWritesThePackedCharacters : Prop :=
  ∀ (s : State) (n : Nat),
    (∀ k, k < n → (s.memRead (s.reg 0 + BitVec.ofNat 16 k)).extractLsb 7 0 ≠ 0) →
    (s.memRead (s.reg 0 + BitVec.ofNat 16 n)).extractLsb 7 0 = 0 →
    ∃ t, exec .putsp s = .next t ∧ t.phase = .ready ∧
      OnlyOutput s t (((List.range n).flatMap fun k =>
        ConEvent.out ((s.memRead (s.reg 0 + BitVec.ofNat 16 k)).extractLsb 7 0) ::
          (if (s.memRead (s.reg 0 + BitVec.ofNat 16 k)).extractLsb 15 8 = 0 then []
            else [ConEvent.out ((s.memRead (s.reg 0 + BitVec.ofNat 16 k)).extractLsb 15 8)])) ++ [.flush])

/-- Over a memory with no terminating cell a string service never completes: it writes the characters of every cell, flushes
nothing, and a step of the block inside it is again inside it (R101, R103, U9). That one such step is one round of memory is
the model's choice (log entry 7). The 8-bit character is decision D9 (log entry 13), the trace of events decision D21 (log
entry 21). -/
def Obligations.StringServicesWithNoTerminatorNeverComplete : Prop :=
  (∀ s : State, (∀ a : Word, s.memRead a ≠ 0) →
    (∃ t, exec .puts s = .next t ∧ t.phase = .putsLoop ∧
      OnlyOutput s t ((List.range 65536).map fun k =>
        ConEvent.out ((s.memRead (s.reg 0 + BitVec.ofNat 16 k)).extractLsb 7 0))) ∧
    (s.runState = .running → s.phase = .putsLoop → step s = exec .puts s)) ∧
  ∀ s : State, (∀ a : Word, (s.memRead a).extractLsb 7 0 ≠ 0) →
    (∃ t, exec .putsp s = .next t ∧ t.phase = .putspLoop ∧
      OnlyOutput s t ((List.range 65536).flatMap fun k =>
        ConEvent.out ((s.memRead (s.reg 0 + BitVec.ofNat 16 k)).extractLsb 7 0) ::
          (if (s.memRead (s.reg 0 + BitVec.ofNat 16 k)).extractLsb 15 8 = 0 then []
            else [ConEvent.out ((s.memRead (s.reg 0 + BitVec.ofNat 16 k)).extractLsb 15 8)]))) ∧
    (s.runState = .running → s.phase = .putspLoop → step s = exec .putsp s)

/-- With a character to be had, GETC reads it into R0 zero-extended and writes nothing; IN writes its prompt and flushes it
first, and does not echo (R99, R102, D9, D10, D11; log entry 13). The list of characters supplied is decision D14's
CONSOLE_IN (log entry 14), the trace of events decision D21 (log entry 21). -/
def Obligations.InputServicesReadOneCharacter : Prop :=
  ∀ (s : State) (c : Byte) (rest : List Byte), s.consoleIn = c :: rest →
    (∃ t, exec .getc s = .next t ∧ (∀ r : Reg, t.reg r = if r = 0 then c.setWidth 16 else s.reg r) ∧
      t.consoleIn = rest ∧ t.consoleOut = s.consoleOut ∧ t.phase = .ready ∧ t.cond = s.cond ∧ t.pc = s.pc ∧
      SameMemory s t ∧ t.runState = s.runState ∧ t.fatal = s.fatal ∧ t.ir = s.ir) ∧
    ∃ t, exec .inp s = .next t ∧ (∀ r : Reg, t.reg r = if r = 0 then c.setWidth 16 else s.reg r) ∧
      t.consoleIn = rest ∧ t.consoleOut = s.consoleOut ++ [.out 0x3E, .out 0x20, .flush] ∧ t.phase = .ready ∧
      t.cond = s.cond ∧ t.pc = s.pc ∧ SameMemory s t ∧ t.runState = s.runState ∧ t.fatal = s.fatal ∧ t.ir = s.ir

/-- With no character to be had, GETC and IN hold in `ConIn()`, IN after its prompt and the flush; R0 is not written and the
block is not Halted (R70, R99, R102, D14; log entry 14). The prompt's bytes 0x3E 0x20 and the order prompt, flush, hold are
decisions D10 and D11 (log entry 13). The trace of events is decision D21 (log entry 21). -/
def Obligations.InputServicesHoldWithoutACharacter : Prop :=
  ∀ s : State, s.consoleIn = [] →
    (∃ t, exec .getc s = .next t ∧ t.phase = .inputHold ∧ OnlyOutput s t []) ∧
    ∃ t, exec .inp s = .next t ∧ t.phase = .inputHold ∧ OnlyOutput s t [.out 0x3E, .out 0x20, .flush]

/-- A held block stays exactly as it is until the host supplies a character; then R0 is written and the step is over (R70,
D14; that a held block's step answers the same state is the model's choice, log entry 14). That R0 receives the character
zero-extended is R99's for GETC, and decision D11 for a held IN (R102; log entry 13). -/
def Obligations.OnlyACharacterEndsTheInputHold : Prop :=
  ∀ s : State, s.runState = .running → s.phase = .inputHold →
    (s.consoleIn = [] → step s = .next s) ∧
    ∀ (c : Byte) (rest : List Byte), s.consoleIn = c :: rest →
      ∃ t, step s = .next t ∧ (∀ r : Reg, t.reg r = if r = 0 then c.setWidth 16 else s.reg r) ∧
        t.consoleIn = rest ∧ t.consoleOut = s.consoleOut ∧ t.phase = .ready ∧ t.cond = s.cond ∧ t.pc = s.pc ∧
        SameMemory s t ∧ t.runState = .running ∧ t.fatal = s.fatal ∧ t.ir = s.ir

/-- HALT writes "Stopped." and a newline, flushes, and halts with no fatal status of its own (R104, D10, D12; log entry 13).
The trace of events is decision D21 (log entry 21). -/
def Obligations.HaltWritesStoppedAndHalts : Prop :=
  ∀ s : State, ∃ t, exec .halt s = .next t ∧ t.runState = .halted ∧
    t.consoleOut = s.consoleOut ++ [.out 0x53, .out 0x74, .out 0x6F, .out 0x70, .out 0x70, .out 0x65, .out 0x64,
      .out 0x2E, .out 0x0A, .flush] ∧
    SameRegs s t ∧ t.cond = s.cond ∧ t.pc = s.pc ∧ SameMemory s t ∧ t.consoleIn = s.consoleIn ∧ t.fatal = s.fatal ∧
    t.phase = s.phase ∧ t.ir = s.ir

/-- The generic TRAP dispatches on its vector: the six services, and UnknownTrap for every other one (R93). The record of
UnknownTrap is decision D15, its vector zero-extended to a word the model's (log entry 15). -/
def Obligations.TrapDispatchesOnItsVector : Prop :=
  ∀ s : State,
    exec (.trap 0x20) s = exec .getc s ∧ exec (.trap 0x21) s = exec .out s ∧ exec (.trap 0x22) s = exec .puts s ∧
    exec (.trap 0x23) s = exec .inp s ∧ exec (.trap 0x24) s = exec .putsp s ∧ exec (.trap 0x25) s = exec .halt s ∧
    ∀ v : BitVec 8, v.toNat < 0x20 ∨ 0x25 < v.toNat →
      exec (.trap v) s = .next (raiseFatal .unknownTrap (v.setWidth 16) s)

/-- A TRAP with a vector outside 0x20..0x25 takes the fatal path with that vector and changes nothing else, R0 included
(R105). The record held as FATAL and in the Err event is decision D15, its vector zero-extended to a word the model's (log
entry 15). -/
def Obligations.UnknownTrapVectorIsFatal : Prop :=
  ∀ (s : State) (v : BitVec 8), v.toNat < 0x20 ∨ 0x25 < v.toNat →
    ∃ t, exec (.trap v) s = .next t ∧ OnlyFatal s t ⟨.unknownTrap, v.setWidth 16⟩

/-- A TRAP of any vector saves nothing and continues at the next instruction: R1..R7, COND, PC and memory are unchanged, R0 too
but for GETC and IN, where it is unchanged or the character read; and the block goes on unless the vector is HALT's or
unknown, where it is Halted (R111, R93). The clause of R0 for GETC and IN is that of R99, R102 and R70: the zero-extension of
IN is decision D11 (log entry 13), and R0 unchanged in a hold is decision D14 (log entry 14). -/
def Obligations.TrapIsAServiceCall : Prop :=
  ∀ (v : BitVec 8) (s t : State), exec (.trap v) s = .next t →
    (∀ r : Reg, r ≠ 0 → t.reg r = s.reg r) ∧ (v ≠ 0x20 → v ≠ 0x23 → t.reg 0 = s.reg 0) ∧
    (v = 0x20 ∨ v = 0x23 →
      t.reg 0 = s.reg 0 ∨ ∃ (c : Byte) (rest : List Byte), s.consoleIn = c :: rest ∧ t.reg 0 = c.setWidth 16) ∧
    t.cond = s.cond ∧ t.pc = s.pc ∧ SameMemory s t ∧
    (0x20 ≤ v.toNat → v.toNat < 0x25 → t.runState = s.runState) ∧
    (v.toNat < 0x20 ∨ 0x25 ≤ v.toNat → t.runState = .halted)

/-- RTI and RES are always the fatal error ReservedOpcode with the whole instruction word (R107, R108). The record held as
FATAL and in the Err event is decision D15, and that nothing goes to the primary output decision D23 (log entry 15). -/
def Obligations.ReservedOpcodesAreFatal : Prop :=
  ∀ s : State,
    (∃ t, exec .rti s = .next t ∧ OnlyFatal s t ⟨.reservedOpcode, s.ir⟩) ∧
    ∃ t, exec .res s = .next t ∧ OnlyFatal s t ⟨.reservedOpcode, s.ir⟩

/-- A step that fetches an RTI or RES word, whatever its unread bits, records that very word and leaves PC one past it
(R107, R108; the opcode values are decision D1, log entry 1). The record held as FATAL and in the Err event is decision D15,
and that nothing goes to the primary output decision D23 (log entry 15). -/
def Obligations.ReservedWordStepsHaltWithThatWord : Prop :=
  ∀ s : State, s.runState = .running → s.phase = .ready →
    ((s.memRead s.pc).extractLsb 15 12 = 0x8 ∨ (s.memRead s.pc).extractLsb 15 12 = 0xD) →
    ∃ t, step s = .next t ∧ t.runState = .halted ∧ t.fatal = some ⟨.reservedOpcode, s.memRead s.pc⟩ ∧
      t.consoleOut = s.consoleOut ++ [.err ⟨.reservedOpcode, s.memRead s.pc⟩] ∧ t.pc = s.pc + 1 ∧
      SameRegs s t ∧ t.cond = s.cond ∧ SameMemory s t ∧ t.consoleIn = s.consoleIn

/-! ## Rules of the whole machine -/

/-- How each instruction leaves PC, the table of R18, for an instruction fetched at `s.pc`. The clause of JSRR with base R7
rests on the spec's reading of an open point, U6 (N14): R7 is written before BaseR is read (R91; log entry 9). That condMask
and COND have one layout is decisions D2 and D3 (log entries 1 and 2). -/
def Obligations.PcAfterEachInstructionIsThatOfR18 : Prop :=
  ∀ (s t : State) (i : Instr), s.runState = .running → s.phase = .ready → decodeWord (s.memRead s.pc) = .ok i →
    step s = .next t →
    t.pc = match i with
      | .br mask off => if mask &&& s.cond ≠ 0 then s.pc + 1 + off.signExtend 16 else s.pc + 1
      | .jmp base => s.reg base
      | .jsr off => s.pc + 1 + off.signExtend 16
      | .jsrr base => if base = 7 then s.pc + 1 else s.reg base
      | _ => s.pc + 1

/-- COND is written exactly by ADD, AND, NOT, LD, LDI, LDR and LEA, from the final value of DR (R20, R22; that JMP, JSR and JSRR
do not write it is decision D5, log entry 8). -/
def Obligations.FlagsFollowTheDestinationAndNothingElseWritesThem : Prop :=
  ∀ (i : Instr) (s t : State), exec i s = .next t →
    (∀ d, flagDest i = some d → t.cond = condOf (t.reg d)) ∧ (flagDest i = none → t.cond = s.cond)

/-- An instruction writes no general register but the ones of R14's table. -/
def Obligations.InstructionsWriteOnlyTheRegistersOfR14 : Prop :=
  ∀ (i : Instr) (s t : State), exec i s = .next t → ∀ r : Reg, r ∉ writtenRegs i → t.reg r = s.reg r

/-- Only ST, STI and STR write memory, each one cell, the one at its address (R37, R41). -/
def Obligations.OnlyStoresWriteMemoryAndOnlyAtTheirAddress : Prop :=
  ∀ (i : Instr) (s t : State), exec i s = .next t →
    (∀ a : Word, storeAddress i s = some a → ∀ b : Word, b ≠ a → t.memRead b = s.memRead b) ∧
    (storeAddress i s = none → SameMemory s t)

/-- COND is observable only through BR: two runs of any other instruction that differ in COND alone end the same but for
COND (R23). That JMP, JSR and JSRR leave COND as it was is decision D5 (R22; log entry 8). -/
def Obligations.CondIsObservableOnlyThroughBranches : Prop :=
  ∀ (i : Instr) (s t : State) (c : BitVec 3), (∀ mask off, i ≠ .br mask off) → exec i s = .next t →
    exec i { s with cond := c } = .next { t with cond := if flagDest i = none then c else t.cond }

/-- What the spec calls unobservable is: IR between steps (R29, D7), and PC before start (R32, D18), so the values the model gives
them at reset (log entry 3) matter to no step. -/
def Obligations.IrAndPcBeforeStartAreUnobservable : Prop :=
  ∀ (s : State) (w : Word),
    (s.runState = .running → s.phase = .ready → step { s with ir := w } = step s) ∧
    (s.runState = .preRun → step { s with pc := w } = step s)

/-- A store into the cell of the next instruction, by ST, STI or STR, is what the next step runs, with nothing in between (R47;
decision D19, log entry 18). -/
def Obligations.StoreIntoTheNextCellIsFetchedNext : Prop :=
  ∀ (s t : State) (store i : Instr) (sr : Reg), s.runState = .running → s.phase = .ready →
    decodeWord (s.memRead s.pc) = .ok store → storeAddress store (fetch s) = some (s.pc + 1) →
    storedReg store = some sr → decodeWord (s.reg sr) = .ok i → step s = .next t →
    step t = exec i { t with ir := s.reg sr, pc := s.pc + 2 }

/-- FATAL is set once and never changed afterward (R28; FATAL held as state is decision D15, log entry 15). -/
def Obligations.FatalStatusNeverChanges : Prop :=
  ∀ (s t : State) (r : FatalRecord), s.Inv → s.fatal = some r → step s = .next t → t.fatal = some r

/-- The output trace only grows, and input is consumed from its front (R94, R95). The two streams are decisions D14 and D21
(log entries 14 and 21). -/
def Obligations.ConsoleStreamsMoveOneWay : Prop :=
  ∀ s t : State, step s = .next t → s.consoleOut <+: t.consoleOut ∧ t.consoleIn <:+ s.consoleIn

/-- The loader's contract: words fill consecutive cells from 0x3000, every other cell and all other state as before; an
image's two bytes b0, b1 are the word `b1 : b0`, the image of any words is their bytes low byte first, and loading it is
loading them (R127; consecutive cells are decision D16, and the limit of 0xD000 words is the model's choice, log entry 11). -/
def Obligations.LoaderFillsConsecutiveCellsFromTheOrigin : Prop :=
  (∀ (s : State) (ws : List Word), s.runState = .preRun → ws.length ≤ 0xD000 →
    ∃ t, loadWords ws s = some t ∧ t = { s with mem := t.mem } ∧
      (∀ (k : Nat) (h : k < ws.length), t.memRead (0x3000 + BitVec.ofNat 16 k) = ws[k]) ∧
      ∀ a : Word, ws.length ≤ (a - 0x3000).toNat → t.memRead a = s.memRead a) ∧
  (∀ (b0 b1 : Byte) (rest : List Byte) (ws : List Word), imageWords rest = some ws →
    imageWords (b0 :: b1 :: rest) = some ((b1 ++ b0) :: ws)) ∧
  imageWords [] = some [] ∧
  ∀ ws : List Word,
    imageWords (ws.flatMap fun w => [w.extractLsb 7 0, w.extractLsb 15 8]) = some ws ∧
    ∀ s : State, loadImage (ws.flatMap fun w => [w.extractLsb 7 0, w.extractLsb 15 8]) s = loadWords ws s

/-- The host writes any one cell in PreRun, and supplies characters in any state, after those not yet consumed; neither
changes anything else (R132, R124, R94). CONSOLE_IN as a list that grows is decision D14 (log entries 5 and 14). -/
def Obligations.HostWritesCellsBeforeStartAndSuppliesInputAnyTime : Prop :=
  (∀ (s : State) (a v : Word), s.runState = .preRun →
    ∃ t, loadCell a v s = some t ∧ t = { s with mem := t.mem } ∧ t.memRead a = v ∧
      ∀ b : Word, b ≠ a → t.memRead b = s.memRead b) ∧
  ∀ (s : State) (cs : List Byte),
    (supplyInput cs s).consoleIn = s.consoleIn ++ cs ∧
    supplyInput cs s = { s with consoleIn := (supplyInput cs s).consoleIn }

/-- The host has no load after start (R126, R132; D17, log entry 17). That one is turned away there, and that an image with an
odd last byte or of more than 0xD000 words is, is the model's choice (U17, U19; log entry 11). -/
def Obligations.LoadsOutsidePreRunAndImagesThatDoNotFitAreTurnedAway : Prop :=
  (∀ s : State, s.runState ≠ .preRun →
    (∀ ws, loadWords ws s = none) ∧ (∀ bytes, loadImage bytes s = none) ∧ ∀ a v, loadCell a v s = none) ∧
  (∀ (ws : List Word) (s : State), 0xD000 < ws.length → loadWords ws s = none) ∧
  ∀ (bytes : List Byte) (s : State), bytes.length % 2 = 1 ∨ 2 * 0xD000 < bytes.length → loadImage bytes s = none

/-! ## Invariants -/

/-- The invariants hold right after reset, at every legal COND_RESET, every canonical MEM_INIT and every CONSOLE_IN (R32, R5),
those of `State.reset` among them (its values are log entries 2, 4 and 5). -/
def Obligations.InvariantsHoldAtReset : Prop :=
  (∀ (c : BitVec 3) (m : Memory) (inp : List Byte), legalCond c → m.wf →
    (State.resetWith c m inp).Inv ∧ (State.resetWith c m inp).FatalCaused ∧ (State.resetWith c m inp).OutputFlushed) ∧
  State.reset.Inv ∧ State.reset.FatalCaused ∧ State.reset.OutputFlushed

/-- What the host may do to the block keeps each invariant: start, supplying input, and every load that is not turned away
(R132). With the invariants' step statements below, every run of a loaded program has them. -/
def Obligations.HostOperationsKeepTheInvariants : Prop :=
  ∀ P ∈ [State.Inv, State.FatalCaused, State.OutputFlushed], ∀ s : State, P s →
    P (start s) ∧ (∀ cs, P (supplyInput cs s)) ∧
    (∀ ws t, loadWords ws s = some t → P t) ∧
    (∀ bytes t, loadImage bytes s = some t → P t) ∧
    ∀ a v t, loadCell a v s = some t → P t

/-- Every step keeps the machine's invariant: canonical memory, legal COND (R24), a fatal status only in Halted and with
exactly one diagnostic (R109, R113), and a wait inside a step only while Running (R122). The canonical form is the model's
(log entry 6), COND's layout decision D3 (log entry 2), FATAL and the Err event decisions D15 and D21 (log entries 15 and
21). -/
def Obligations.EveryStepKeepsTheInvariant : Prop :=
  ∀ s t : State, s.Inv → step s = .next t → t.Inv

/-- Every step keeps FATAL a record of a kind R112 calls reachable: UnknownOpcode and OutOfBounds never occur,
ReservedOpcode names an RTI or RES word, UnknownTrap a vector outside the six. The record is decision D15 (log entry 15),
the opcode values of RTI and RES decision D1 (log entry 1). -/
def Obligations.EveryStepKeepsTheFatalCause : Prop :=
  ∀ s t : State, s.FatalCaused → step s = .next t → t.FatalCaused

/-- No output is ever left unflushed at a hold, in Halted or between steps (R106; HALT's flush is decision D12, log entry
13). The trace of events is decision D21 (log entry 21); the scan without end, left out here, is D13's (log entry 7). -/
def Obligations.EveryStepLeavesTheOutputFlushed : Prop :=
  ∀ s t : State, s.OutputFlushed → step s = .next t → t.OutputFlushed

/-- From the first flag-affecting instruction on, exactly one flag is set (R21). COND's layout is decision D3 (log entry 2).
-/
def Obligations.ExactlyOneFlagFromTheFirstFlagUpdateOn : Prop :=
  (∀ (i : Instr) (s t : State) (d : Reg), flagDest i = some d → exec i s = .next t → oneFlag t.cond) ∧
  ∀ s t : State, oneFlag s.cond → step s = .next t → oneFlag t.cond
end

