-- ==== Sys2Proof/Laws/State.lean ====
section
/-! SUPPORT. The fields of the state after each named update: one lemma per field and update, so that no proof unfolds a
record update. -/

namespace Sys2Proof.Machine

/-! ## setReg -/

@[simp] theorem setReg_regs (s : State) (r : Reg) (v : Word) : (s.setReg r v).regs = s.regs.set r.val v := rfl
@[simp] theorem setReg_pc (s : State) (r : Reg) (v : Word) : (s.setReg r v).pc = s.pc := rfl
@[simp] theorem setReg_cond (s : State) (r : Reg) (v : Word) : (s.setReg r v).cond = s.cond := rfl
@[simp] theorem setReg_ir (s : State) (r : Reg) (v : Word) : (s.setReg r v).ir = s.ir := rfl
@[simp] theorem setReg_mem (s : State) (r : Reg) (v : Word) : (s.setReg r v).mem = s.mem := rfl
@[simp] theorem setReg_runState (s : State) (r : Reg) (v : Word) : (s.setReg r v).runState = s.runState := rfl
@[simp] theorem setReg_fatal (s : State) (r : Reg) (v : Word) : (s.setReg r v).fatal = s.fatal := rfl
@[simp] theorem setReg_phase (s : State) (r : Reg) (v : Word) : (s.setReg r v).phase = s.phase := rfl
@[simp] theorem setReg_consoleIn (s : State) (r : Reg) (v : Word) : (s.setReg r v).consoleIn = s.consoleIn := rfl
@[simp] theorem setReg_consoleOut (s : State) (r : Reg) (v : Word) : (s.setReg r v).consoleOut = s.consoleOut := rfl

/-! ## setPc -/

@[simp] theorem setPc_regs (s : State) (v : Word) : (s.setPc v).regs = s.regs := rfl
@[simp] theorem setPc_pc (s : State) (v : Word) : (s.setPc v).pc = v := rfl
@[simp] theorem setPc_cond (s : State) (v : Word) : (s.setPc v).cond = s.cond := rfl
@[simp] theorem setPc_ir (s : State) (v : Word) : (s.setPc v).ir = s.ir := rfl
@[simp] theorem setPc_mem (s : State) (v : Word) : (s.setPc v).mem = s.mem := rfl
@[simp] theorem setPc_runState (s : State) (v : Word) : (s.setPc v).runState = s.runState := rfl
@[simp] theorem setPc_fatal (s : State) (v : Word) : (s.setPc v).fatal = s.fatal := rfl
@[simp] theorem setPc_phase (s : State) (v : Word) : (s.setPc v).phase = s.phase := rfl
@[simp] theorem setPc_consoleIn (s : State) (v : Word) : (s.setPc v).consoleIn = s.consoleIn := rfl
@[simp] theorem setPc_consoleOut (s : State) (v : Word) : (s.setPc v).consoleOut = s.consoleOut := rfl

/-! ## memWrite -/

@[simp] theorem memWrite_regs (s : State) (a v : Word) : (s.memWrite a v).regs = s.regs := rfl
@[simp] theorem memWrite_pc (s : State) (a v : Word) : (s.memWrite a v).pc = s.pc := rfl
@[simp] theorem memWrite_cond (s : State) (a v : Word) : (s.memWrite a v).cond = s.cond := rfl
@[simp] theorem memWrite_ir (s : State) (a v : Word) : (s.memWrite a v).ir = s.ir := rfl
@[simp] theorem memWrite_mem (s : State) (a v : Word) : (s.memWrite a v).mem = s.mem.write a v := rfl
@[simp] theorem memWrite_runState (s : State) (a v : Word) : (s.memWrite a v).runState = s.runState := rfl
@[simp] theorem memWrite_fatal (s : State) (a v : Word) : (s.memWrite a v).fatal = s.fatal := rfl
@[simp] theorem memWrite_phase (s : State) (a v : Word) : (s.memWrite a v).phase = s.phase := rfl
@[simp] theorem memWrite_consoleIn (s : State) (a v : Word) : (s.memWrite a v).consoleIn = s.consoleIn := rfl
@[simp] theorem memWrite_consoleOut (s : State) (a v : Word) : (s.memWrite a v).consoleOut = s.consoleOut := rfl

/-! ## conOut -/

@[simp] theorem conOut_regs (s : State) (c : Byte) : (conOut c s).regs = s.regs := rfl
@[simp] theorem conOut_pc (s : State) (c : Byte) : (conOut c s).pc = s.pc := rfl
@[simp] theorem conOut_cond (s : State) (c : Byte) : (conOut c s).cond = s.cond := rfl
@[simp] theorem conOut_ir (s : State) (c : Byte) : (conOut c s).ir = s.ir := rfl
@[simp] theorem conOut_mem (s : State) (c : Byte) : (conOut c s).mem = s.mem := rfl
@[simp] theorem conOut_runState (s : State) (c : Byte) : (conOut c s).runState = s.runState := rfl
@[simp] theorem conOut_fatal (s : State) (c : Byte) : (conOut c s).fatal = s.fatal := rfl
@[simp] theorem conOut_phase (s : State) (c : Byte) : (conOut c s).phase = s.phase := rfl
@[simp] theorem conOut_consoleIn (s : State) (c : Byte) : (conOut c s).consoleIn = s.consoleIn := rfl
@[simp] theorem conOut_consoleOut (s : State) (c : Byte) : (conOut c s).consoleOut = s.consoleOut ++ [.out c] := rfl

/-! ## conOutAll -/

@[simp] theorem conOutAll_regs (s : State) (cs : List Byte) : (conOutAll cs s).regs = s.regs := rfl
@[simp] theorem conOutAll_pc (s : State) (cs : List Byte) : (conOutAll cs s).pc = s.pc := rfl
@[simp] theorem conOutAll_cond (s : State) (cs : List Byte) : (conOutAll cs s).cond = s.cond := rfl
@[simp] theorem conOutAll_ir (s : State) (cs : List Byte) : (conOutAll cs s).ir = s.ir := rfl
@[simp] theorem conOutAll_mem (s : State) (cs : List Byte) : (conOutAll cs s).mem = s.mem := rfl
@[simp] theorem conOutAll_runState (s : State) (cs : List Byte) : (conOutAll cs s).runState = s.runState := rfl
@[simp] theorem conOutAll_fatal (s : State) (cs : List Byte) : (conOutAll cs s).fatal = s.fatal := rfl
@[simp] theorem conOutAll_phase (s : State) (cs : List Byte) : (conOutAll cs s).phase = s.phase := rfl
@[simp] theorem conOutAll_consoleIn (s : State) (cs : List Byte) : (conOutAll cs s).consoleIn = s.consoleIn := rfl
@[simp] theorem conOutAll_consoleOut (s : State) (cs : List Byte) : (conOutAll cs s).consoleOut = s.consoleOut ++ cs.map .out := rfl

/-! ## conFlush -/

@[simp] theorem conFlush_regs (s : State) : (conFlush s).regs = s.regs := rfl
@[simp] theorem conFlush_pc (s : State) : (conFlush s).pc = s.pc := rfl
@[simp] theorem conFlush_cond (s : State) : (conFlush s).cond = s.cond := rfl
@[simp] theorem conFlush_ir (s : State) : (conFlush s).ir = s.ir := rfl
@[simp] theorem conFlush_mem (s : State) : (conFlush s).mem = s.mem := rfl
@[simp] theorem conFlush_runState (s : State) : (conFlush s).runState = s.runState := rfl
@[simp] theorem conFlush_fatal (s : State) : (conFlush s).fatal = s.fatal := rfl
@[simp] theorem conFlush_phase (s : State) : (conFlush s).phase = s.phase := rfl
@[simp] theorem conFlush_consoleIn (s : State) : (conFlush s).consoleIn = s.consoleIn := rfl
@[simp] theorem conFlush_consoleOut (s : State) : (conFlush s).consoleOut = s.consoleOut ++ [.flush] := rfl

/-! ## conErr -/

@[simp] theorem conErr_regs (s : State) (e : FatalRecord) : (conErr e s).regs = s.regs := rfl
@[simp] theorem conErr_pc (s : State) (e : FatalRecord) : (conErr e s).pc = s.pc := rfl
@[simp] theorem conErr_cond (s : State) (e : FatalRecord) : (conErr e s).cond = s.cond := rfl
@[simp] theorem conErr_ir (s : State) (e : FatalRecord) : (conErr e s).ir = s.ir := rfl
@[simp] theorem conErr_mem (s : State) (e : FatalRecord) : (conErr e s).mem = s.mem := rfl
@[simp] theorem conErr_runState (s : State) (e : FatalRecord) : (conErr e s).runState = s.runState := rfl
@[simp] theorem conErr_fatal (s : State) (e : FatalRecord) : (conErr e s).fatal = s.fatal := rfl
@[simp] theorem conErr_phase (s : State) (e : FatalRecord) : (conErr e s).phase = s.phase := rfl
@[simp] theorem conErr_consoleIn (s : State) (e : FatalRecord) : (conErr e s).consoleIn = s.consoleIn := rfl
@[simp] theorem conErr_consoleOut (s : State) (e : FatalRecord) : (conErr e s).consoleOut = s.consoleOut ++ [.err e] := rfl

/-! ## halt -/

@[simp] theorem halt_regs (s : State) : (halt s).regs = s.regs := rfl
@[simp] theorem halt_pc (s : State) : (halt s).pc = s.pc := rfl
@[simp] theorem halt_cond (s : State) : (halt s).cond = s.cond := rfl
@[simp] theorem halt_ir (s : State) : (halt s).ir = s.ir := rfl
@[simp] theorem halt_mem (s : State) : (halt s).mem = s.mem := rfl
@[simp] theorem halt_runState (s : State) : (halt s).runState = .halted := rfl
@[simp] theorem halt_fatal (s : State) : (halt s).fatal = s.fatal := rfl
@[simp] theorem halt_phase (s : State) : (halt s).phase = s.phase := rfl
@[simp] theorem halt_consoleIn (s : State) : (halt s).consoleIn = s.consoleIn := rfl
@[simp] theorem halt_consoleOut (s : State) : (halt s).consoleOut = s.consoleOut := rfl

/-! ## raiseFatal -/

@[simp] theorem raiseFatal_regs (s : State) (q : FatalReason) (w : Word) : (raiseFatal q w s).regs = s.regs := rfl
@[simp] theorem raiseFatal_pc (s : State) (q : FatalReason) (w : Word) : (raiseFatal q w s).pc = s.pc := rfl
@[simp] theorem raiseFatal_cond (s : State) (q : FatalReason) (w : Word) : (raiseFatal q w s).cond = s.cond := rfl
@[simp] theorem raiseFatal_ir (s : State) (q : FatalReason) (w : Word) : (raiseFatal q w s).ir = s.ir := rfl
@[simp] theorem raiseFatal_mem (s : State) (q : FatalReason) (w : Word) : (raiseFatal q w s).mem = s.mem := rfl
@[simp] theorem raiseFatal_runState (s : State) (q : FatalReason) (w : Word) : (raiseFatal q w s).runState = .halted := rfl
@[simp] theorem raiseFatal_fatal (s : State) (q : FatalReason) (w : Word) : (raiseFatal q w s).fatal = some ⟨q, w⟩ := rfl
@[simp] theorem raiseFatal_phase (s : State) (q : FatalReason) (w : Word) : (raiseFatal q w s).phase = s.phase := rfl
@[simp] theorem raiseFatal_consoleIn (s : State) (q : FatalReason) (w : Word) : (raiseFatal q w s).consoleIn = s.consoleIn := rfl
@[simp] theorem raiseFatal_consoleOut (s : State) (q : FatalReason) (w : Word) : (raiseFatal q w s).consoleOut = s.consoleOut ++ [.err ⟨q, w⟩] := rfl

/-! ## fetch -/

@[simp] theorem fetch_regs (s : State) : (fetch s).regs = s.regs := rfl
@[simp] theorem fetch_pc (s : State) : (fetch s).pc = s.pc + 1 := rfl
@[simp] theorem fetch_cond (s : State) : (fetch s).cond = s.cond := rfl
@[simp] theorem fetch_ir (s : State) : (fetch s).ir = s.memRead s.pc := rfl
@[simp] theorem fetch_mem (s : State) : (fetch s).mem = s.mem := rfl
@[simp] theorem fetch_runState (s : State) : (fetch s).runState = s.runState := rfl
@[simp] theorem fetch_fatal (s : State) : (fetch s).fatal = s.fatal := rfl
@[simp] theorem fetch_phase (s : State) : (fetch s).phase = s.phase := rfl
@[simp] theorem fetch_consoleIn (s : State) : (fetch s).consoleIn = s.consoleIn := rfl
@[simp] theorem fetch_consoleOut (s : State) : (fetch s).consoleOut = s.consoleOut := rfl

/-! ## Reads of registers and memory after an update -/

theorem reg_setReg (s : State) (r q : Reg) (v : Word) :
    (s.setReg r v).reg q = if q = r then v else s.reg q := by
  by_cases h : q = r
  · subst h; simp [State.reg]
  · have : r.val ≠ q.val := fun e => h (Fin.ext e.symm)
    simp [State.reg, h, this]

@[simp] theorem reg_setPc (s : State) (v : Word) (r : Reg) : (s.setPc v).reg r = s.reg r := rfl
@[simp] theorem reg_memWrite (s : State) (a v : Word) (r : Reg) : (s.memWrite a v).reg r = s.reg r := rfl
@[simp] theorem reg_conOut (s : State) (c : Byte) (r : Reg) : (conOut c s).reg r = s.reg r := rfl
@[simp] theorem reg_conOutAll (s : State) (cs : List Byte) (r : Reg) : (conOutAll cs s).reg r = s.reg r := rfl
@[simp] theorem reg_conFlush (s : State) (r : Reg) : (conFlush s).reg r = s.reg r := rfl
@[simp] theorem reg_raiseFatal (s : State) (q : FatalReason) (w : Word) (r : Reg) :
    (raiseFatal q w s).reg r = s.reg r := rfl
@[simp] theorem reg_fetch (s : State) (r : Reg) : (fetch s).reg r = s.reg r := rfl

@[simp] theorem memRead_setReg (s : State) (r : Reg) (v a : Word) : (s.setReg r v).memRead a = s.memRead a := rfl
@[simp] theorem memRead_setPc (s : State) (v a : Word) : (s.setPc v).memRead a = s.memRead a := rfl
@[simp] theorem memRead_fetch (s : State) (a : Word) : (fetch s).memRead a = s.memRead a := rfl

end Sys2Proof.Machine
end

