-- ==== Sys2Proof/Laws/Memory.lean ====
section
/-! SUPPORT. The laws of memory: a read after a write (spec 20_memory.md R35), and the canonical form that every operation on
memory keeps. -/

namespace Sys2Proof.Machine

theorem lookupCell_removeCell (l : List (Nat × Word)) (a b : Nat) :
    lookupCell (removeCell a l) b = if b = a then unlistedCell else lookupCell l b := by
  induction l with
  | nil => simp [removeCell, lookupCell]
  | cons c rest ih =>
    by_cases hc : c.1 = a
    · rw [removeCell, if_pos hc, ih]
      by_cases hb : b = a
      · rw [if_pos hb, if_pos hb]
      · rw [if_neg hb, if_neg hb, lookupCell, if_neg fun e => hb (e.symm.trans hc)]
    · by_cases hb : c.1 = b
      · have : b ≠ a := fun e => hc (hb.trans e)
        simp [removeCell, lookupCell, hb, this]
      · simp [removeCell, lookupCell, hc, hb, ih]

theorem lookupCell_insertCell (l : List (Nat × Word)) (a b : Nat) (v : Word) (h : ∀ c ∈ l, c.1 ≠ a) :
    lookupCell (insertCell a v l) b = if b = a then v else lookupCell l b := by
  induction l with
  | nil => simp [insertCell, lookupCell, eq_comm]
  | cons c rest ih =>
    have hc : c.1 ≠ a := h c (by simp)
    have ih' := ih fun d hd => h d (by simp [hd])
    by_cases hlt : a < c.1
    · simp [insertCell, lookupCell, hlt, eq_comm]
    · rw [insertCell, if_neg hlt, lookupCell, ih', lookupCell]
      by_cases hb : c.1 = b
      · rw [if_pos hb, if_pos hb, if_neg fun e => hc (hb.trans e)]
      · rw [if_neg hb, if_neg hb]

theorem removeCell_subset (l : List (Nat × Word)) (a : Nat) : ∀ c ∈ removeCell a l, c ∈ l ∧ c.1 ≠ a := by
  induction l with
  | nil => simp [removeCell]
  | cons d rest ih =>
    intro c hc
    by_cases hd : d.1 = a
    · simp only [removeCell, hd, if_true] at hc
      exact ⟨List.mem_cons_of_mem _ (ih c hc).1, (ih c hc).2⟩
    · simp only [removeCell, hd, if_false, List.mem_cons] at hc
      rcases hc with rfl | hc
      · exact ⟨by simp, hd⟩
      · exact ⟨List.mem_cons_of_mem _ (ih c hc).1, (ih c hc).2⟩

theorem insertCell_mem (l : List (Nat × Word)) (a : Nat) (v : Word) :
    ∀ c ∈ insertCell a v l, c = (a, v) ∨ c ∈ l := by
  induction l with
  | nil => simp [insertCell]
  | cons d rest ih =>
    intro c hc
    by_cases hlt : a < d.1
    · simpa [insertCell, hlt] using hc
    · simp only [insertCell, hlt, if_false, List.mem_cons] at hc
      rcases hc with rfl | hc
      · simp
      · rcases ih c hc with h | h <;> simp [h]

theorem removeCell_pairwise (l : List (Nat × Word)) (a : Nat) (h : l.Pairwise fun c d => c.1 < d.1) :
    (removeCell a l).Pairwise fun c d => c.1 < d.1 := by
  induction l with
  | nil => simp [removeCell]
  | cons d rest ih =>
    have h' := List.pairwise_cons.mp h
    by_cases hd : d.1 = a
    · simpa [removeCell, hd] using ih h'.2
    · simp only [removeCell, hd, if_false, List.pairwise_cons]
      exact ⟨fun c hc => h'.1 c (removeCell_subset rest a c hc).1, ih h'.2⟩

theorem insertCell_pairwise (l : List (Nat × Word)) (a : Nat) (v : Word)
    (h : l.Pairwise fun c d => c.1 < d.1) (hne : ∀ c ∈ l, c.1 ≠ a) :
    (insertCell a v l).Pairwise fun c d => c.1 < d.1 := by
  induction l with
  | nil => simp [insertCell]
  | cons d rest ih =>
    have h' := List.pairwise_cons.mp h
    by_cases hlt : a < d.1
    · simp only [insertCell, hlt, if_true, List.pairwise_cons, List.mem_cons]
      refine ⟨?_, h'⟩
      rintro c (rfl | hc)
      · exact hlt
      · exact Nat.lt_trans hlt (h'.1 c hc)
    · simp only [insertCell, hlt, if_false, List.pairwise_cons]
      refine ⟨fun c hc => ?_, ih h'.2 fun c hc => hne c (by simp [hc])⟩
      rcases insertCell_mem rest a v c hc with rfl | hc
      · have := hne d (by simp)
        show d.1 < a
        omega
      · exact h'.1 c hc

/-- "memory.write(a,w); memory.read(a) == w" (R35). -/
theorem read_write_same (m : Memory) (a v : Word) : (m.write a v).read a = v := by
  by_cases h : v = unlistedCell
  · simp [Memory.write, Memory.read, h, lookupCell_removeCell]
  · simp [Memory.write, Memory.read, h,
      lookupCell_insertCell _ _ _ _ fun c hc => (removeCell_subset _ _ c hc).2]

/-- A write changes no other cell (R35). -/
theorem read_write_other (m : Memory) (a b v : Word) (hb : b ≠ a) : (m.write a v).read b = m.read b := by
  have hn : b.toNat ≠ a.toNat := fun e => hb (BitVec.eq_of_toNat_eq e)
  by_cases h : v = unlistedCell
  · simp [Memory.write, Memory.read, h, lookupCell_removeCell, hn]
  · simp [Memory.write, Memory.read, h, hn, lookupCell_removeCell,
      lookupCell_insertCell _ _ _ _ fun c hc => (removeCell_subset _ _ c hc).2]

theorem empty_wf : Memory.empty.wf := by decide

/-- A write keeps the canonical form. -/
theorem write_wf (m : Memory) (a v : Word) (h : m.wf) : (m.write a v).wf := by
  have hp := removeCell_pairwise m.cells a.toNat h.1
  have hm : ∀ c ∈ removeCell a.toNat m.cells, c.1 < Config.memSize ∧ c.2 ≠ unlistedCell :=
    fun c hc => h.2 c (removeCell_subset _ _ c hc).1
  by_cases hv : v = unlistedCell
  · rw [Memory.write, if_pos hv]
    exact ⟨hp, hm⟩
  · simp only [Memory.write, hv, if_false]
    refine ⟨insertCell_pairwise _ _ _ hp fun c hc => (removeCell_subset _ _ c hc).2, fun c hc => ?_⟩
    rcases insertCell_mem _ _ _ c hc with rfl | hc
    · exact ⟨a.isLt, hv⟩
    · exact hm c hc

/-- The loader keeps the canonical form. -/
theorem storeWords_wf (ws : List Word) (a : Word) (m : Memory) (h : m.wf) : (storeWords a ws m).wf := by
  induction ws generalizing a m with
  | nil => exact h
  | cons w rest ih => exact ih (a + 1) (m.write a w) (write_wf m a w h)

theorem memRead_memWrite (s : State) (a b v : Word) :
    (s.memWrite a v).memRead b = if b = a then v else s.memRead b := by
  by_cases h : b = a
  · subst h; simp [State.memRead, read_write_same]
  · simp [State.memRead, h, read_write_other _ _ _ _ h]

end Sys2Proof.Machine
end

