-- ==== Sys2Proof/Laws/Boot.lean ====
section
/-! SUPPORT. What the host's operations can do (spec 70_reset_and_hazards.md R132), said once for each: start, the loads, and
supplying input. -/

namespace Sys2Proof.Machine

/-- Start either takes PreRun to Running with PC at the origin, or has no effect (R61, R62). -/
theorem start_cases (s : State) :
    (s.runState = .preRun ∧ start s = { s with runState := .running, pc := Config.origin }) ∨
    (s.runState ≠ .preRun ∧ start s = s) := by
  cases h : s.runState <;> simp [start, h]

/-- A load of words that is not turned away happens in PreRun, fits, and writes memory alone. -/
theorem loadWords_cases {ws : List Word} {s t : State} (h : loadWords ws s = some t) :
    s.runState = .preRun ∧ ws.length ≤ imageRoom ∧ t = { s with mem := storeWords Config.origin ws s.mem } := by
  unfold loadWords at h
  cases hr : s.runState <;> simp only [hr] at h
  · split at h
    · cases h; exact ⟨rfl, ‹_›, rfl⟩
    · cases h
  · cases h
  · cases h

/-- A load of an image that is not turned away is the load of its words. -/
theorem loadImage_cases {bytes : List Byte} {s t : State} (h : loadImage bytes s = some t) :
    ∃ ws, imageWords bytes = some ws ∧ loadWords ws s = some t := by
  unfold loadImage at h
  split at h
  · exact ⟨_, ‹_›, h⟩
  · cases h

/-- A write of a cell that is not turned away happens in PreRun and is that write. -/
theorem loadCell_cases {a v : Word} {s t : State} (h : loadCell a v s = some t) :
    s.runState = .preRun ∧ t = s.memWrite a v := by
  unfold loadCell at h
  cases hr : s.runState <;> simp only [hr] at h
  · cases h; exact ⟨rfl, rfl⟩
  · cases h
  · cases h

@[simp] theorem supplyInput_regs (cs : List Byte) (s : State) : (supplyInput cs s).regs = s.regs := rfl
@[simp] theorem supplyInput_pc (cs : List Byte) (s : State) : (supplyInput cs s).pc = s.pc := rfl
@[simp] theorem supplyInput_cond (cs : List Byte) (s : State) : (supplyInput cs s).cond = s.cond := rfl
@[simp] theorem supplyInput_ir (cs : List Byte) (s : State) : (supplyInput cs s).ir = s.ir := rfl
@[simp] theorem supplyInput_mem (cs : List Byte) (s : State) : (supplyInput cs s).mem = s.mem := rfl
@[simp] theorem supplyInput_runState (cs : List Byte) (s : State) : (supplyInput cs s).runState = s.runState := rfl
@[simp] theorem supplyInput_fatal (cs : List Byte) (s : State) : (supplyInput cs s).fatal = s.fatal := rfl
@[simp] theorem supplyInput_phase (cs : List Byte) (s : State) : (supplyInput cs s).phase = s.phase := rfl
@[simp] theorem supplyInput_consoleIn (cs : List Byte) (s : State) :
    (supplyInput cs s).consoleIn = s.consoleIn ++ cs := rfl
@[simp] theorem supplyInput_consoleOut (cs : List Byte) (s : State) : (supplyInput cs s).consoleOut = s.consoleOut := rfl

end Sys2Proof.Machine
end

