-- ==== Sys2Proof/Laws/Encoding.lean ====
section
/-! SUPPORT. Fields and formats (spec 30_encoding.md R50, R52): the fields that the decoder cuts from each format are the ones
that were put there, and a word put together from its own fields is that word with its unread bits cleared. -/

namespace Sys2Proof

@[simp] theorem regOfBits_bitsOfReg (r : Reg) : regOfBits (bitsOfReg r) = r := rfl
@[simp] theorem bitsOfReg_regOfBits (b : BitVec 3) : bitsOfReg (regOfBits b) = b := rfl

theorem getLsbD_place {n : Nat} (lo : Nat) (f : BitVec n) (i : Nat) :
    (place lo f).getLsbD i = (decide (i < 16) && decide (lo ≤ i) && f.getLsbD (i - lo)) := by
  rw [place, BitVec.getLsbD_shiftLeft, BitVec.getLsbD_setWidth]
  by_cases h : i < 16
  · by_cases h' : lo ≤ i
    · simp [h, h', show i - lo < 16 by omega]
    · simp [h, h', Nat.lt_of_not_le h']
  · simp [h]

theorem getElem_place {n : Nat} (lo : Nat) (f : BitVec n) (i : Nat) (h : i < 16) :
    (place lo f)[i] = (decide (lo ≤ i) && f.getLsbD (i - lo)) := by
  have := getLsbD_place lo f i
  rwa [BitVec.getLsbD_eq_getElem h, decide_eq_true h, Bool.true_and] at this

/-- A field cut where it was placed is the field. -/
theorem field_place {n : Nat} (lo : Nat) (f : BitVec n) (h : lo + n ≤ 16) : (place lo f).extractLsb' lo n = f := by
  ext i hi
  have hl : (place lo f).getLsbD (lo + i) = f.getLsbD i := by
    rw [getLsbD_place]; simp [show lo + i < 16 by omega]
  rw [BitVec.getElem_extractLsb', hl, BitVec.getLsbD_eq_getElem hi]

/-- A field cut below the place of another one sees nothing of it. -/
theorem field_place_below {n : Nat} (lo : Nat) (f : BitVec n) (at' len : Nat) (h : at' + len ≤ lo) :
    (place lo f).extractLsb' at' len = 0 := by
  ext i hi
  simp [getLsbD_place, show ¬ lo ≤ at' + i by omega]

/-- A field cut above the place of another one sees nothing of it. -/
theorem field_place_above {n : Nat} (lo : Nat) (f : BitVec n) (at' len : Nat) (h : lo + n ≤ at') :
    (place lo f).extractLsb' at' len = 0 := by
  ext i hi
  simp [getLsbD_place, BitVec.getLsbD_of_ge f (at' + i - lo) (by omega)]

theorem field_or (x y : Word) (lo len : Nat) :
    (x ||| y).extractLsb' lo len = x.extractLsb' lo len ||| y.extractLsb' lo len := by
  ext i hi
  simp

theorem formatOPR_fields (op : BitVec 4) (d s t : Reg) :
    opField (formatOPR op d s t) = op ∧ field11_9 (formatOPR op d s t) = bitsOfReg d ∧
      field8_6 (formatOPR op d s t) = bitsOfReg s ∧ immFlag (formatOPR op d s t) = false ∧
      field2_0 (formatOPR op d s t) = bitsOfReg t := by
  simp [opField, field11_9, field8_6, field2_0, immFlag, formatOPR, field_or, field_place, field_place_below,
    field_place_above, getElem_place]

theorem formatOPI_fields (op : BitVec 4) (d s : Reg) (imm : BitVec 5) :
    opField (formatOPI op d s imm) = op ∧ field11_9 (formatOPI op d s imm) = bitsOfReg d ∧
      field8_6 (formatOPI op d s imm) = bitsOfReg s ∧ immFlag (formatOPI op d s imm) = true ∧
      imm5Field (formatOPI op d s imm) = imm := by
  simp [opField, field11_9, field8_6, imm5Field, immFlag, formatOPI, field_or, field_place, field_place_below,
    field_place_above, getLsbD_place]

theorem formatUN_fields (op : BitVec 4) (d s : Reg) :
    opField (formatUN op d s) = op ∧ field11_9 (formatUN op d s) = bitsOfReg d ∧
      field8_6 (formatUN op d s) = bitsOfReg s := by
  simp [opField, field11_9, field8_6, formatUN, field_or, field_place, field_place_below, field_place_above]

theorem formatPC9_fields (op : BitVec 4) (f : BitVec 3) (off : BitVec 9) :
    opField (formatPC9 op f off) = op ∧ field11_9 (formatPC9 op f off) = f ∧
      pcOffset9Field (formatPC9 op f off) = off := by
  simp [opField, field11_9, pcOffset9Field, formatPC9, field_or, field_place, field_place_below, field_place_above]

theorem formatB6_fields (op : BitVec 4) (d b : Reg) (off : BitVec 6) :
    opField (formatB6 op d b off) = op ∧ field11_9 (formatB6 op d b off) = bitsOfReg d ∧
      field8_6 (formatB6 op d b off) = bitsOfReg b ∧ offset6Field (formatB6 op d b off) = off := by
  simp [opField, field11_9, field8_6, offset6Field, formatB6, field_or, field_place, field_place_below,
    field_place_above]

theorem formatJR_fields (op : BitVec 4) (b : Reg) :
    opField (formatJR op b) = op ∧ field8_6 (formatJR op b) = bitsOfReg b ∧ jsrFlag (formatJR op b) = false := by
  simp [opField, field8_6, jsrFlag, formatJR, field_or, field_place, field_place_below, field_place_above,
    getElem_place]

theorem formatJ11_fields (op : BitVec 4) (off : BitVec 11) :
    opField (formatJ11 op off) = op ∧ jsrFlag (formatJ11 op off) = true ∧
      pcOffset11Field (formatJ11 op off) = off := by
  simp [opField, jsrFlag, pcOffset11Field, formatJ11, field_or, field_place, field_place_below, field_place_above,
    getLsbD_place]

theorem formatTV_fields (op : BitVec 4) (v : BitVec 8) :
    opField (formatTV op v) = op ∧ trapVectorField (formatTV op v) = v := by
  simp [opField, trapVectorField, formatTV, field_or, field_place, field_place_below, field_place_above]

theorem formatNONE_fields (op : BitVec 4) : opField (formatNONE op) = op := by
  simp [opField, formatNONE, field_place]

end Sys2Proof
end

