-- ==== Sys2Proof/Laws/Operands.lean ====
section
/-! SUPPORT. Sign extension, the flag update and the result of a flag-affecting instruction: one lemma for each. -/

namespace Sys2Proof.Machine

/-- The source's `signExtend` (spec 00_scope.md R8) is two's-complement sign extension. -/
theorem sext_eq_signExtend {n : Nat} (v : BitVec n) (h : n ≤ 16) : sext v = v.signExtend 16 := by
  apply BitVec.eq_of_getLsbD_eq
  intro i hi
  have hones : ∀ j < 16, (0xFFFF : Word).getLsbD j = true := by decide
  rw [BitVec.getLsbD_signExtend, sext]
  by_cases hin : i < n
  · by_cases hm : v.msb = true <;> simp [hm, hin, hi]
  · have hv : v.getLsbD i = false := BitVec.getLsbD_of_ge v i (by omega)
    by_cases hm : v.msb = true
    · rw [if_pos hm, BitVec.getLsbD_or, BitVec.getLsbD_shiftLeft, hones _ (by omega)]
      simp [hin, hi, hm]
    · rw [if_neg hm, BitVec.getLsbD_setWidth, hv]
      simp [hin, hi, hm]

theorem condOf_cases (v : Word) :
    (v.getLsbD 15 = true ∧ condOf v = condNEG) ∨ (v = 0 ∧ condOf v = condZRO) ∨
      (v.getLsbD 15 = false ∧ v ≠ 0 ∧ condOf v = condPOS) := by
  by_cases hn : v.getLsbD 15 = true
  · exact .inl ⟨hn, if_pos hn⟩
  · have hn' : v.getLsbD 15 = false := by simpa using hn
    by_cases hz : v = 0
    · exact .inr (.inl ⟨hz, by rw [condOf, if_neg hn, if_pos hz]⟩)
    · exact .inr (.inr ⟨hn', hz, by rw [condOf, if_neg hn, if_neg hz]⟩)

theorem reg_writeResult (s : State) (d r : Reg) (v : Word) :
    (writeResult d v s).reg r = if r = d then v else s.reg r := reg_setReg s d r v

@[simp] theorem writeResult_cond (s : State) (d : Reg) (v : Word) : (writeResult d v s).cond = condOf v := rfl
@[simp] theorem writeResult_pc (s : State) (d : Reg) (v : Word) : (writeResult d v s).pc = s.pc := rfl
@[simp] theorem writeResult_ir (s : State) (d : Reg) (v : Word) : (writeResult d v s).ir = s.ir := rfl
@[simp] theorem writeResult_mem (s : State) (d : Reg) (v : Word) : (writeResult d v s).mem = s.mem := rfl
@[simp] theorem writeResult_runState (s : State) (d : Reg) (v : Word) :
    (writeResult d v s).runState = s.runState := rfl
@[simp] theorem writeResult_fatal (s : State) (d : Reg) (v : Word) : (writeResult d v s).fatal = s.fatal := rfl
@[simp] theorem writeResult_phase (s : State) (d : Reg) (v : Word) : (writeResult d v s).phase = s.phase := rfl
@[simp] theorem writeResult_consoleIn (s : State) (d : Reg) (v : Word) :
    (writeResult d v s).consoleIn = s.consoleIn := rfl
@[simp] theorem writeResult_consoleOut (s : State) (d : Reg) (v : Word) :
    (writeResult d v s).consoleOut = s.consoleOut := rfl

end Sys2Proof.Machine
end

