-- ==== Sys2Proof/Laws/Trap.lean ====
section
/-! SUPPORT. What the shared operations of the console services can do: the input (spec 40_dispatch.md R70) and the string scan
(44_trap.md R101, R103). -/

namespace Sys2Proof.Machine

theorem inputToR0_of_char (s : State) (c : Byte) (rest : List Byte) (h : s.consoleIn = c :: rest) :
    inputToR0 s = { ({ s with consoleIn := rest }).setReg 0 (zext16 c) with phase := .ready } := by
  simp [inputToR0, conIn, h]

theorem inputToR0_of_empty (s : State) (h : s.consoleIn = []) : inputToR0 s = { s with phase := .inputHold } := by
  simp [inputToR0, conIn, h]

/-- Everything the input part of GETC and IN can do. -/
theorem inputToR0_cases (s : State) :
    (∃ c rest, s.consoleIn = c :: rest ∧
      inputToR0 s = { ({ s with consoleIn := rest }).setReg 0 (zext16 c) with phase := .ready }) ∨
    (s.consoleIn = [] ∧ inputToR0 s = { s with phase := .inputHold }) := by
  by_cases h : s.consoleIn = []
  · exact .inr ⟨h, inputToR0_of_empty s h⟩
  · obtain ⟨c, rest, hc⟩ := List.exists_cons_of_ne_nil h
    exact .inl ⟨c, rest, hc, inputToR0_of_char s c rest hc⟩

/-- The address of the `k`-th cell of a scan, reached one cell later. -/
theorem scan_addr (a : Word) (k : Nat) : a + 1 + BitVec.ofNat 16 k = a + BitVec.ofNat 16 (k + 1) := by
  rw [BitVec.add_assoc, BitVec.add_comm 1, BitVec.ofNat_add k 1]; rfl

/-- A scan that meets its terminator at distance `n` gives the characters of the cells before it. -/
theorem scanCells_of_stop (m : Memory) (stop : Word → Bool) (chars : Word → List Byte) (n fuel : Nat) (a : Word)
    (hn : n < fuel) (hbefore : ∀ k < n, stop (m.read (a + BitVec.ofNat 16 k)) = false)
    (hstop : stop (m.read (a + BitVec.ofNat 16 n)) = true) :
    scanCells m stop chars fuel a = ((List.range n).flatMap fun k => chars (m.read (a + BitVec.ofNat 16 k)), true) := by
  induction n generalizing fuel a with
  | zero =>
    obtain ⟨fuel, rfl⟩ : ∃ f, fuel = f + 1 := ⟨fuel - 1, by omega⟩
    have hstop : stop (m.read a) = true := by simpa using hstop
    simp [scanCells, hstop]
  | succ n ih =>
    obtain ⟨fuel, rfl⟩ : ∃ f, fuel = f + 1 := ⟨fuel - 1, by omega⟩
    have h0 : stop (m.read a) = false := by simpa using hbefore 0 (by omega)
    have hrest := ih fuel (a + 1) (by omega)
      (fun k hk => by rw [scan_addr]; exact hbefore (k + 1) (by omega)) (by rw [scan_addr]; exact hstop)
    simp only [scanCells, h0, hrest, scan_addr, List.range_succ_eq_map, List.flatMap_cons, List.flatMap_map]
    simp

/-- A scan that meets no terminator gives the characters of every cell it passed. -/
theorem scanCells_of_no_stop (m : Memory) (stop : Word → Bool) (chars : Word → List Byte) (fuel : Nat) (a : Word)
    (h : ∀ k < fuel, stop (m.read (a + BitVec.ofNat 16 k)) = false) :
    scanCells m stop chars fuel a =
      ((List.range fuel).flatMap fun k => chars (m.read (a + BitVec.ofNat 16 k)), false) := by
  induction fuel generalizing a with
  | zero => rfl
  | succ fuel ih =>
    have h0 : stop (m.read a) = false := by simpa using h 0 (by omega)
    have hrest := ih (a + 1) fun k hk => by rw [scan_addr]; exact h (k + 1) (by omega)
    simp only [scanCells, h0, hrest, scan_addr, List.range_succ_eq_map, List.flatMap_cons, List.flatMap_map]
    simp

/-- Everything a string service can do: it completes with its characters and one flush, or it stays inside the step. -/
theorem serviceString_cases (stop : Word → Bool) (chars : Word → List Byte) (loop : Phase) (s : State) :
    (∃ cs, serviceString stop chars loop s = { conFlush (conOutAll cs s) with phase := .ready }) ∨
    ∃ cs, serviceString stop chars loop s = { conOutAll cs s with phase := loop } := by
  by_cases h : (scanCells s.mem stop chars Config.memSize (s.reg 0)).2 = true
  · exact .inl ⟨(scanCells s.mem stop chars Config.memSize (s.reg 0)).1, if_pos h⟩
  · exact .inr ⟨(scanCells s.mem stop chars Config.memSize (s.reg 0)).1, if_neg h⟩

theorem serviceString_of_scan (stop : Word → Bool) (chars : Word → List Byte) (loop : Phase) (s : State)
    (cs : List Byte) (h : scanCells s.mem stop chars Config.memSize (s.reg 0) = (cs, true)) :
    serviceString stop chars loop s = { conFlush (conOutAll cs s) with phase := .ready } := by
  simp [serviceString, h]

theorem serviceString_of_endless_scan (stop : Word → Bool) (chars : Word → List Byte) (loop : Phase) (s : State)
    (cs : List Byte) (h : scanCells s.mem stop chars Config.memSize (s.reg 0) = (cs, false)) :
    serviceString stop chars loop s = { conOutAll cs s with phase := loop } := by
  simp [serviceString, h]

/-- The generic dispatch at a vector that names no service. -/
theorem dispatchTrap_unknown (v : BitVec 8) (s : State) (h : isServiceVector v = false) :
    dispatchTrap v s = raiseFatal .unknownTrap (zext16 v) s := by
  have hv : v.toNat < 0x20 ∨ 0x25 < v.toNat := by
    by_contra hc
    simp only [isServiceVector, Bool.and_eq_false_iff, decide_eq_false_iff_not] at h
    omega
  unfold dispatchTrap
  split <;> first | omega | rfl

end Sys2Proof.Machine
end

