-- ==== Sys2Proof/Laws/Exec.lean ====
section
/-! SUPPORT. What an instruction and what a step can do, said once: the inversion of `exec` and of `step`. -/

namespace Sys2Proof

theorem handlerOf_opcodeOf (o : Opcode) : handlerOf (opcodeOf o) = some o := by
  cases o <;> decide

theorem handlerOf_total (op : BitVec 4) : ∃ o, handlerOf op = some o := by
  have h : ∀ n : Fin 16, (handlerOf (BitVec.ofFin n)).isSome = true := by decide
  exact Option.isSome_iff_exists.mp (h op.toFin)

/-- The opcode alone selects the handler (R67). -/
theorem decodeWith_of_handler (handler : BitVec 4 → Option Opcode) (ir : Word) (o : Opcode)
    (h : handler (opField ir) = some o) : decodeWith handler ir = .ok (decodeAs o ir) := by
  simp [decodeWith, h]

/-- The defensive arm of R67 is never reached (R57). -/
theorem decodeWord_total (ir : Word) : ∃ o, handlerOf (opField ir) = some o ∧ decodeWord ir = .ok (decodeAs o ir) := by
  obtain ⟨o, h⟩ := handlerOf_total (opField ir)
  exact ⟨o, h, decodeWith_of_handler handlerOf ir o h⟩

namespace Machine

/-- The vector a trap instruction dispatches on. -/
def trapVector : Instr → Option (BitVec 8)
  | .getc => some 0x20
  | .out => some 0x21
  | .puts => some 0x22
  | .inp => some 0x23
  | .putsp => some 0x24
  | .halt => some 0x25
  | .trap v => some v
  | _ => none

/-- Everything an instruction can do: a result with its flags, a store, a jump, a linked jump, a trap service, or the reserved
opcodes' fatal error. -/
theorem exec_cases {i : Instr} {s t : State} (h : exec i s = .next t) :
    (∃ d v, flagDest i = some d ∧ writtenRegs i = [d] ∧ storeAddress i s = none ∧ trapVector i = none ∧
      t = writeResult d v s) ∨
    (∃ a v, storeAddress i s = some a ∧ flagDest i = none ∧ trapVector i = none ∧ t = s.memWrite a v) ∨
    (∃ v, flagDest i = none ∧ storeAddress i s = none ∧ trapVector i = none ∧ t = s.setPc v) ∨
    (∃ v, flagDest i = none ∧ storeAddress i s = none ∧ trapVector i = none ∧ writtenRegs i = [7] ∧
      t = (s.setReg 7 s.pc).setPc v) ∨
    (∃ v, trapVector i = some v ∧ flagDest i = none ∧ storeAddress i s = none ∧ t = dispatchTrap v s) ∨
    ((i = .rti ∨ i = .res) ∧ t = raiseFatal .reservedOpcode s.ir s) := by
  cases i <;> (injection h with h; subst h)
  case br mask off =>
    refine .inr (.inr (.inl ⟨if condTaken mask s.cond then eaPc9 off s else s.pc, rfl, rfl, rfl, ?_⟩))
    by_cases hc : condTaken mask s.cond = true <;> simp [hc, State.setPc]
  case jmp => exact .inr (.inr (.inl ⟨_, rfl, rfl, rfl, rfl⟩))
  case jsr => exact .inr (.inr (.inr (.inl ⟨_, rfl, rfl, rfl, rfl, rfl⟩)))
  case jsrr => exact .inr (.inr (.inr (.inl ⟨_, rfl, rfl, rfl, rfl, rfl⟩)))
  case rti => exact .inr (.inr (.inr (.inr (.inr ⟨.inl rfl, rfl⟩))))
  case res => exact .inr (.inr (.inr (.inr (.inr ⟨.inr rfl, rfl⟩))))
  case st => exact .inr (.inl ⟨_, _, rfl, rfl, rfl, rfl⟩)
  case sti => exact .inr (.inl ⟨_, _, rfl, rfl, rfl, rfl⟩)
  case str => exact .inr (.inl ⟨_, _, rfl, rfl, rfl, rfl⟩)
  all_goals first
    | exact .inl ⟨_, _, rfl, rfl, rfl, rfl, rfl⟩
    | exact .inr (.inr (.inr (.inr (.inl ⟨_, rfl, rfl, rfl, rfl⟩))))

/-- Everything the trap dispatch can do. -/
theorem dispatchTrap_cases (v : BitVec 8) (s : State) :
    (v = 0x20 ∧ dispatchTrap v s = inputToR0 s) ∨
    (v = 0x21 ∧ dispatchTrap v s = serviceOut s) ∨
    (v = 0x22 ∧ dispatchTrap v s = servicePuts s) ∨
    (v = 0x23 ∧ dispatchTrap v s = inputToR0 (conFlush (conOutAll inPrompt s))) ∨
    (v = 0x24 ∧ dispatchTrap v s = servicePutsp s) ∨
    (v = 0x25 ∧ dispatchTrap v s = serviceHalt s) ∨
    (isServiceVector v = false ∧ dispatchTrap v s = raiseFatal .unknownTrap (zext16 v) s) := by
  by_cases h : isServiceVector v = false
  · exact .inr (.inr (.inr (.inr (.inr (.inr ⟨h, dispatchTrap_unknown v s h⟩)))))
  · have hr : 0x20 ≤ v.toNat ∧ v.toNat ≤ 0x25 := by
      simpa [isServiceVector] using h
    have hv : v = 0x20 ∨ v = 0x21 ∨ v = 0x22 ∨ v = 0x23 ∨ v = 0x24 ∨ v = 0x25 := by
      obtain ⟨hl, hu⟩ := hr
      have : v.toNat = 0x20 ∨ v.toNat = 0x21 ∨ v.toNat = 0x22 ∨ v.toNat = 0x23 ∨ v.toNat = 0x24 ∨
          v.toNat = 0x25 := by omega
      rcases this with e | e | e | e | e | e
      · exact .inl (BitVec.eq_of_toNat_eq e)
      · exact .inr (.inl (BitVec.eq_of_toNat_eq e))
      · exact .inr (.inr (.inl (BitVec.eq_of_toNat_eq e)))
      · exact .inr (.inr (.inr (.inl (BitVec.eq_of_toNat_eq e))))
      · exact .inr (.inr (.inr (.inr (.inl (BitVec.eq_of_toNat_eq e)))))
      · exact .inr (.inr (.inr (.inr (.inr (BitVec.eq_of_toNat_eq e)))))
    rcases hv with rfl | rfl | rfl | rfl | rfl | rfl
    · exact .inl ⟨rfl, rfl⟩
    · exact .inr (.inl ⟨rfl, rfl⟩)
    · exact .inr (.inr (.inl ⟨rfl, rfl⟩))
    · exact .inr (.inr (.inr (.inl ⟨rfl, rfl⟩)))
    · exact .inr (.inr (.inr (.inr (.inl ⟨rfl, rfl⟩))))
    · exact .inr (.inr (.inr (.inr (.inr (.inl ⟨rfl, rfl⟩)))))

/-- Everything a step can do. -/
theorem step_cases {s t : State} (h : step s = .next t) :
    (s.runState = .preRun ∧ t = start s) ∨
    (s.runState = .halted ∧ t = s) ∨
    (s.runState = .running ∧ s.phase = .ready ∧
      ∃ i, decodeWord (s.memRead s.pc) = .ok i ∧ exec i (fetch s) = .next t) ∨
    (s.runState = .running ∧ s.phase = .inputHold ∧ t = inputToR0 s) ∨
    (s.runState = .running ∧ s.phase = .putsLoop ∧ t = servicePuts s) ∨
    (s.runState = .running ∧ s.phase = .putspLoop ∧ t = servicePutsp s) := by
  unfold step at h
  split at h
  case h_1 hr => injection h with h; exact .inl ⟨hr, h.symm⟩
  case h_3 hr => injection h with h; exact .inr (.inl ⟨hr, h.symm⟩)
  case h_2 hr =>
    unfold runningStep at h
    split at h
    case h_1 hp =>
      obtain ⟨o, -, hd⟩ := decodeWord_total (s.memRead s.pc)
      refine .inr (.inr (.inl ⟨hr, hp, _, hd, ?_⟩))
      have hd' : decodeWord (fetch s).ir = .ok (decodeAs o (s.memRead s.pc)) := hd
      simpa only [instructionStep, dispatch, hd'] using h
    case h_2 hp => injection h with h; exact .inr (.inr (.inr (.inl ⟨hr, hp, h.symm⟩)))
    case h_3 hp => injection h with h; exact .inr (.inr (.inr (.inr (.inl ⟨hr, hp, h.symm⟩))))
    case h_4 hp => injection h with h; exact .inr (.inr (.inr (.inr (.inr ⟨hr, hp, h.symm⟩))))

/-- The trace after more events: what is left unflushed. -/
theorem unflushedAfter_append (p : List Byte) (a b : List ConEvent) :
    unflushedAfter p (a ++ b) = unflushedAfter (unflushedAfter p a) b := by
  induction a generalizing p with
  | nil => rfl
  | cons e rest ih => cases e <;> exact ih _

end Machine
end Sys2Proof
end

