-- ==== Sys2Proof/Laws/PerInstr.lean ====
section
/-! SUPPORT. The family TableRow: each instruction's word lies in its row of spec/opcode_table.json, that is, it agrees with the
row's `match` in every bit of the row's `mask`. -/

namespace Sys2Proof.Laws.TableRow

/-- The mask of the instruction's row in the opcode table. -/
def tableMask : Instr → Word
  | .addReg _ _ _ | .addImm _ _ _ | .andReg _ _ _ | .andImm _ _ _ => 0xF020
  | .not _ _ | .ld _ _ | .ldi _ _ | .ldr _ _ _ | .lea _ _ | .st _ _ | .sti _ _ | .str _ _ _ => 0xF000
  | .br _ _ | .jmp _ => 0xF000
  | .jsr _ | .jsrr _ => 0xF800
  | .getc | .out | .puts | .inp | .putsp | .halt => 0xF0FF
  | .trap _ | .rti | .res => 0xF000

/-- The match value of the instruction's row in the opcode table. -/
def tableMatch : Instr → Word
  | .addReg _ _ _ => 0x1000
  | .addImm _ _ _ => 0x1020
  | .andReg _ _ _ => 0x5000
  | .andImm _ _ _ => 0x5020
  | .not _ _ => 0x9000
  | .ld _ _ => 0x2000
  | .ldi _ _ => 0xA000
  | .ldr _ _ _ => 0x6000
  | .lea _ _ => 0xE000
  | .st _ _ => 0x3000
  | .sti _ _ => 0xB000
  | .str _ _ _ => 0x7000
  | .br _ _ => 0x0000
  | .jmp _ => 0xC000
  | .jsr _ => 0x4800
  | .jsrr _ => 0x4000
  | .getc => 0xF020
  | .out => 0xF021
  | .puts => 0xF022
  | .inp => 0xF023
  | .putsp => 0xF024
  | .halt => 0xF025
  | .trap _ => 0xF000
  | .rti => 0x8000
  | .res => 0xD000

/-- The instruction's word lies in its row. -/
def Statement (i : Instr) : Prop := encode i &&& tableMask i = tableMatch i

/-- A word with the opcode `op` in its top nibble is `op` there when the other bits are masked off. -/
theorem masked_opcode (w : Word) (op : BitVec 4) (h : opField w = op) : w &&& 0xF000 = place 12 op := by
  subst h
  apply BitVec.eq_of_getLsbD_eq
  intro i hi
  simp only [BitVec.getLsbD_and, getLsbD_place, opField, BitVec.getLsbD_extractLsb']
  interval_cases i <;> simp

/-- The same with the mode bit `ir[5]` of ADD and AND kept. -/
theorem masked_opcode_imm (w : Word) (op : BitVec 4) (b : Bool) (h : opField w = op) (hb : immFlag w = b) :
    w &&& 0xF020 = place 12 op ||| place 5 (BitVec.ofBool b) := by
  subst h hb
  apply BitVec.eq_of_getLsbD_eq
  intro i hi
  simp only [BitVec.getLsbD_and, BitVec.getLsbD_or, getLsbD_place, opField, immFlag, BitVec.getLsbD_extractLsb']
  interval_cases i <;> simp

/-- The same with the mode bit `ir[11]` of JSR kept. -/
theorem masked_opcode_jsr (w : Word) (op : BitVec 4) (b : Bool) (h : opField w = op) (hb : jsrFlag w = b) :
    w &&& 0xF800 = place 12 op ||| place 11 (BitVec.ofBool b) := by
  subst h hb
  apply BitVec.eq_of_getLsbD_eq
  intro i hi
  simp only [BitVec.getLsbD_and, BitVec.getLsbD_or, getLsbD_place, opField, jsrFlag, BitVec.getLsbD_extractLsb']
  interval_cases i <;> simp

theorem addReg (d a b : Reg) : Statement (.addReg d a b) :=
  (masked_opcode_imm _ _ false (formatOPR_fields _ d a b).1 (formatOPR_fields _ d a b).2.2.2.1).trans (by simp only [tableMatch]; decide)

theorem addImm (d a : Reg) (imm : BitVec 5) : Statement (.addImm d a imm) :=
  (masked_opcode_imm _ _ true (formatOPI_fields _ d a imm).1 (formatOPI_fields _ d a imm).2.2.2.1).trans (by simp only [tableMatch]; decide)

theorem andReg (d a b : Reg) : Statement (.andReg d a b) :=
  (masked_opcode_imm _ _ false (formatOPR_fields _ d a b).1 (formatOPR_fields _ d a b).2.2.2.1).trans (by simp only [tableMatch]; decide)

theorem andImm (d a : Reg) (imm : BitVec 5) : Statement (.andImm d a imm) :=
  (masked_opcode_imm _ _ true (formatOPI_fields _ d a imm).1 (formatOPI_fields _ d a imm).2.2.2.1).trans (by simp only [tableMatch]; decide)

theorem not (d a : Reg) : Statement (.not d a) := (masked_opcode _ _ (formatUN_fields _ d a).1).trans (by simp only [tableMatch]; decide)

theorem ld (d : Reg) (off : BitVec 9) : Statement (.ld d off) :=
  (masked_opcode _ _ (formatPC9_fields _ (bitsOfReg d) off).1).trans (by simp only [tableMatch]; decide)

theorem ldi (d : Reg) (off : BitVec 9) : Statement (.ldi d off) :=
  (masked_opcode _ _ (formatPC9_fields _ (bitsOfReg d) off).1).trans (by simp only [tableMatch]; decide)

theorem ldr (d b : Reg) (off : BitVec 6) : Statement (.ldr d b off) :=
  (masked_opcode _ _ (formatB6_fields _ d b off).1).trans (by simp only [tableMatch]; decide)

theorem lea (d : Reg) (off : BitVec 9) : Statement (.lea d off) :=
  (masked_opcode _ _ (formatPC9_fields _ (bitsOfReg d) off).1).trans (by simp only [tableMatch]; decide)

theorem st (r : Reg) (off : BitVec 9) : Statement (.st r off) :=
  (masked_opcode _ _ (formatPC9_fields _ (bitsOfReg r) off).1).trans (by simp only [tableMatch]; decide)

theorem sti (r : Reg) (off : BitVec 9) : Statement (.sti r off) :=
  (masked_opcode _ _ (formatPC9_fields _ (bitsOfReg r) off).1).trans (by simp only [tableMatch]; decide)

theorem str (r b : Reg) (off : BitVec 6) : Statement (.str r b off) :=
  (masked_opcode _ _ (formatB6_fields _ r b off).1).trans (by simp only [tableMatch]; decide)

theorem br (mask : BitVec 3) (off : BitVec 9) : Statement (.br mask off) :=
  (masked_opcode _ _ (formatPC9_fields _ mask off).1).trans (by simp only [tableMatch]; decide)

theorem jmp (b : Reg) : Statement (.jmp b) := (masked_opcode _ _ (formatJR_fields _ b).1).trans (by simp only [tableMatch]; decide)

theorem jsr (off : BitVec 11) : Statement (.jsr off) :=
  (masked_opcode_jsr _ _ true (formatJ11_fields _ off).1 (formatJ11_fields _ off).2.1).trans (by simp only [tableMatch]; decide)

theorem jsrr (b : Reg) : Statement (.jsrr b) :=
  (masked_opcode_jsr _ _ false (formatJR_fields _ b).1 (formatJR_fields _ b).2.2).trans (by simp only [tableMatch]; decide)

theorem getc : Statement .getc := by unfold Statement; decide
theorem out : Statement .out := by unfold Statement; decide
theorem puts : Statement .puts := by unfold Statement; decide
theorem inp : Statement .inp := by unfold Statement; decide
theorem putsp : Statement .putsp := by unfold Statement; decide
theorem halt : Statement .halt := by unfold Statement; decide

theorem trap (v : BitVec 8) : Statement (.trap v) := (masked_opcode _ _ (formatTV_fields _ v).1).trans (by simp only [tableMatch]; decide)

theorem rti : Statement .rti := by unfold Statement; decide
theorem res : Statement .res := by unfold Statement; decide

end Sys2Proof.Laws.TableRow
end

