-- ==== Sys2Proof/Tests/Slice0.lean ====
section
/-! SUPPORT. The model's own tests. Expected results are the spec's: V<n> and W<n> name vectors of spec/95_test_vectors.md, and
each decoded word is written out from the formats of 30_encoding.md R52 with the opcode values of R49. Then, for each statement
with hypotheses, a state and operands that meet them. -/

namespace Sys2Proof.Tests

open Sys2Proof.Machine

/-! ## Well-formedness: the one check, and a term it refuses -/

theorem test_wellFormed_refuses_service_vectors_in_trap :
    (Instr.trap 0x20).wellFormed = false ∧ (Instr.trap 0x25).wellFormed = false := by decide

theorem test_wellFormed_accepts_other_vectors :
    (Instr.trap 0x1F).wellFormed = true ∧ (Instr.trap 0x26).wellFormed = true := by decide

/-! ## Decoding, every constructor -/

theorem test_decode_add : decodeWord 0b0001_010_000_0_00_001 = .ok (.addReg 2 0 1) ∧
    decodeWord 0b0001_111_101_1_10110 = .ok (.addImm 7 5 0b10110) := by decide
theorem test_decode_and : decodeWord 0b0101_011_110_0_11_100 = .ok (.andReg 3 6 4) ∧
    decodeWord 0b0101_100_001_1_01101 = .ok (.andImm 4 1 0b01101) := by decide
theorem test_decode_not : decodeWord 0b1001_001_110_111111 = .ok (.not 1 6) := by decide
theorem test_decode_ld : decodeWord 0b0010_101_100000011 = .ok (.ld 5 0b100000011) := by decide
theorem test_decode_ldi : decodeWord 0b1010_010_000000111 = .ok (.ldi 2 7) := by decide
theorem test_decode_ldr : decodeWord 0b0110_101_100_100110 = .ok (.ldr 5 4 0b100110) := by decide
theorem test_decode_lea : decodeWord 0b1110_110_111111111 = .ok (.lea 6 0b111111111) := by decide
theorem test_decode_st : decodeWord 0b0011_011_000000010 = .ok (.st 3 2) := by decide
theorem test_decode_sti : decodeWord 0b1011_011_000000110 = .ok (.sti 3 6) := by decide
theorem test_decode_str : decodeWord 0b0111_011_100_000110 = .ok (.str 3 4 6) := by decide
theorem test_decode_br : decodeWord 0b0000_100_000000101 = .ok (.br 0b100 5) ∧
    decodeWord 0x0000 = .ok (.br 0 0) := by decide
theorem test_decode_jmp : decodeWord 0b1100_000_111_000000 = .ok (.jmp 7) ∧
    decodeWord 0b1100_101_010_110011 = .ok (.jmp 2) := by decide
theorem test_decode_jsr : decodeWord 0b0100_1_10000010000 = .ok (.jsr 0b10000010000) ∧
    decodeWord 0b0100_0_11_010_101010 = .ok (.jsrr 2) := by decide
theorem test_decode_traps : decodeWord 0b1111_0000_00100000 = .ok .getc ∧ decodeWord 0b1111_0000_00100001 = .ok .out ∧
    decodeWord 0b1111_0000_00100010 = .ok .puts ∧ decodeWord 0b1111_0000_00100011 = .ok .inp ∧
    decodeWord 0b1111_0000_00100100 = .ok .putsp ∧ decodeWord 0b1111_1111_00100101 = .ok .halt ∧
    decodeWord 0b1111_0000_10011001 = .ok (.trap 0x99) := by decide
theorem test_decode_reserved : decodeWord 0b1000_010101010101 = .ok .rti ∧ decodeWord 0xD123 = .ok .res := by decide
theorem test_decode_bytes_low_byte_first : decodeBytes [0x07, 0x22, 0x25] = .ok (.ld 1 7, [0x25]) ∧
    decodeBytes [0x25] = .error .truncated := by decide
theorem test_unknown_opcode_is_the_defensive_arm :
    decodeWith (fun _ => none) 0x1401 = .error (.unknownOpcode 1) := by decide

/-! ## One step -/

/-- A Running block about to fetch `w` at `a`. -/
def at' (a w : Word) : State := ({ State.reset with runState := .running, pc := a }).memWrite a w

/-- The state one step leads to. -/
def after (s : State) : State :=
  match step s with
  | .next t => t
  | .fault _ => s
  | .refused _ => s

/-- V77. -/
theorem test_reset_then_start : (after State.reset).runState = .running ∧ (after State.reset).pc = 0x3000 ∧
    (after State.reset).cond = condNONE := by decide
/-- V17: bits [4:3] are not read. -/
theorem test_add_register : let t := after ((at' 0x3000 0x1018).setReg 0 2)
    t.reg 0 = 4 ∧ t.cond = condPOS ∧ t.pc = 0x3001 := by decide
/-- V12: the carry is dropped. -/
theorem test_add_immediate : let t := after ((at' 0x3000 0x1021).setReg 0 0xFFFF)
    t.reg 0 = 0 ∧ t.cond = condZRO := by decide
/-- V15: the most negative imm5. -/
theorem test_add_immediate_negative : let t := after ((at' 0x3000 0x1030).setReg 0 0x0010)
    t.reg 0 = 0 ∧ t.cond = condZRO := by decide
/-- V18. -/
theorem test_and_register : let t := after (((at' 0x3000 0x5242).setReg 1 0x00F0).setReg 2 0x0FF0)
    t.reg 1 = 0x00F0 ∧ t.cond = condPOS := by decide
/-- V22: an immediate with bit 4 set keeps bits [15:4]. -/
theorem test_and_immediate : let t := after ((at' 0x3000 0x5030).setReg 0 0x1234)
    t.reg 0 = 0x1230 ∧ t.cond = condPOS := by decide
/-- V24: bits [5:0] are not read. -/
theorem test_not : let t := after ((at' 0x3000 0x9200).setReg 0 5)
    t.reg 1 = 0xFFFA ∧ t.cond = condNEG := by decide
/-- V29: PC wraps, and the load reads its own word. -/
theorem test_ld : let t := after (at' 0xFFFF 0x21FF)
    t.reg 0 = 0x21FF ∧ t.cond = condPOS ∧ t.pc = 0 := by decide
/-- V30: the flags are those of the data. -/
theorem test_ldi : let t := after (((at' 0x3001 0xA407).memWrite 0x3009 0x3008).memWrite 0x3008 5)
    t.reg 2 = 5 ∧ t.cond = condPOS := by decide
/-- V33: base and offset wrap. -/
theorem test_ldr : let t := after (((at' 0x3000 0x6B01).setReg 4 0xFFFF).memWrite 0 0x1234)
    t.reg 5 = 0x1234 ∧ t.cond = condPOS := by decide
/-- V36: the address 0 sets ZRO. -/
theorem test_lea : let t := after (at' 0xFFFF 0xE000)
    t.reg 0 = 0 ∧ t.cond = condZRO := by decide
/-- V37. -/
theorem test_lea_high_address : let t := after (at' 0x8000 0xE1FF)
    t.reg 0 = 0x8000 ∧ t.cond = condNEG := by decide
/-- V38. -/
theorem test_st : let t := after ((at' 0x3000 0x3602).setReg 3 0xBEEF)
    t.memRead 0x3003 = 0xBEEF ∧ t.cond = condNONE := by decide
/-- V40: the pointer is read before the write. -/
theorem test_sti : let t := after (((at' 0x3000 0xB000).setReg 0 0xAAAA).memWrite 0x3001 0x3001)
    t.memRead 0x3001 = 0xAAAA := by decide
/-- V42: SR is the base. -/
theorem test_str : (after ((at' 0x3000 0x7900).setReg 4 0x3050)).memRead 0x3050 = 0x3050 := by decide
/-- V49: the most negative PCoffset9. -/
theorem test_br_taken : (after { at' 0x3000 0x0D00 with cond := condZRO }).pc = 0x2F01 := by decide
/-- V44: not taken before any flag write. -/
theorem test_br_not_taken : (after (at' 0x3000 0x0E05)).pc = 0x3001 := by decide
/-- V50. -/
theorem test_ret : (after ((at' 0x3000 0xC1C0).setReg 7 0x3003)).pc = 0x3003 := by decide
/-- V53: the most negative PCoffset11. -/
theorem test_jsr : let t := after (at' 0x3000 0x4C00)
    t.reg 7 = 0x3001 ∧ t.pc = 0x2C01 := by decide
/-- V55. -/
theorem test_jsrr : let t := after ((at' 0x3005 0x4080).setReg 2 0x4000)
    t.reg 7 = 0x3006 ∧ t.pc = 0x4000 := by decide
/-- V56: R7 is written first. -/
theorem test_jsrr_r7 : let t := after ((at' 0x3005 0x41C0).setReg 7 0x5000)
    t.reg 7 = 0x3006 ∧ t.pc = 0x3006 := by decide
/-- V58: zero-extended. -/
theorem test_getc : let t := after { at' 0x3000 0xF020 with consoleIn := [0xFF] }
    t.reg 0 = 0x00FF ∧ t.consoleIn = [] ∧ t.consoleOut = [] := by decide
/-- V59: no character. -/
theorem test_getc_holds : let t := after (at' 0x3000 0xF020)
    t.phase = .inputHold ∧ t.runState = .running ∧ t.reg 0 = 0 := by decide
/-- V60. -/
theorem test_out : let t := after ((at' 0x3000 0xF021).setReg 0 0x1241)
    t.consoleOut = [.out 0x41, .flush] ∧ t.reg 0 = 0x1241 := by decide
/-- V62: 0x0100 is no terminator. -/
theorem test_puts : (after ((((at' 0x3000 0xF022).setReg 0 0x4000).memWrite 0x4000 0x0100).memWrite 0x4001 0x0041)).consoleOut
    = [.out 0x00, .out 0x41, .flush] := by decide
/-- V64: the scan wraps. -/
theorem test_puts_wraps :
    (after ((((at' 0x3000 0xF022).setReg 0 0xFFFF).memWrite 0xFFFF 0x0041).memWrite 0x0000 0x0042)).consoleOut
      = [.out 0x41, .out 0x42, .flush] := by decide
/-- V65: the prompt, no echo. -/
theorem test_in : let t := after { at' 0x3000 0xF023 with consoleIn := [0x37] }
    t.consoleOut = [.out 0x3E, .out 0x20, .flush] ∧ t.reg 0 = 0x37 := by decide
/-- V67. -/
theorem test_putsp : (after ((((at' 0x3000 0xF024).setReg 0 0x4000).memWrite 0x4000 0x6B4F).memWrite 0x4001 0x0021)).consoleOut
    = [.out 0x4F, .out 0x6B, .out 0x21, .flush] := by decide
/-- V69: a zero high byte is not written, and a zero low byte ends the string. -/
theorem test_putsp_stops :
    (after ((((at' 0x3000 0xF024).setReg 0 0x4000).memWrite 0x4000 0x0041).memWrite 0x4001 0x4200)).consoleOut
      = [.out 0x41, .flush] := by decide
/-- V71: bits [11:8] are not read. -/
theorem test_halt : let t := after (at' 0x3000 0xFF25)
    t.runState = .halted ∧ t.fatal = none ∧ primaryOutput t.consoleOut = [0x53, 0x74, 0x6F, 0x70, 0x70, 0x65, 0x64, 0x2E, 0x0A] := by
  decide
/-- V72, W9. -/
theorem test_unknown_trap : let t := after ((at' 0x3000 0xF099).setReg 0 0x1234)
    t.fatal = some ⟨.unknownTrap, 0x99⟩ ∧ t.consoleOut = [.err ⟨.unknownTrap, 0x99⟩] ∧ t.runState = .halted ∧
      t.reg 0 = 0x1234 := by decide
/-- V75. -/
theorem test_rti : let t := after (at' 0x3000 0x8000)
    t.fatal = some ⟨.reservedOpcode, 0x8000⟩ ∧ t.runState = .halted ∧ t.pc = 0x3001 := by decide
/-- V76: the whole word is recorded. -/
theorem test_res : let t := after (at' 0x4000 0xD123)
    t.fatal = some ⟨.reservedOpcode, 0xD123⟩ ∧ t.runState = .halted ∧ t.pc = 0x4001 := by decide
/-- V79: no step in Halted. -/
theorem test_halted_is_still : after (after (at' 0x3000 0xF025)) = after (at' 0x3000 0xF025) := by decide
/-- R127: the image's bytes, low byte first, fill the cells from 0x3000. -/
theorem test_load_image : (loadImage [0x02, 0xE0, 0x22, 0xF0] State.reset).map
    (fun t => (t.memRead 0x3000, t.memRead 0x3001)) = some (0xE002, 0xF022) := by decide
/-- The word placed after reset is the next step's instruction. -/
theorem test_withFetchWord : (after (State.reset.withFetchWord 16 0x103F)).reg 0 = 0xFFFF ∧
    decodeTableWord 16 0x103F = some (.addImm 0 0 0b11111) := by decide

/-! ## Hypotheses that can be met -/

theorem witness_DecodeOfEncodeIsTheInstruction :
    (∀ o, handlerOf (opcodeOf o) = some o) ∧ (Instr.trap 0xFF).wellFormed = true :=
  ⟨fun o => by cases o <;> decide, by decide⟩
theorem witness_UnreadBitsDoNotChangeTheInstruction :
    decodeWord 0x1401 = .ok (.addReg 2 0 1) ∧
      (0x1419 : Word) &&& ~~~ unreadBits (.addReg 2 0 1) = 0x1401 &&& ~~~ unreadBits (.addReg 2 0 1) := by decide
/-- A word for each of the 16 handlers. -/
theorem witness_HandlersCutTheirFieldsAtFixedBits :
    (∀ o : Opcode, handlerOf ((place 12 (opcodeOf o)).extractLsb 15 12) = some o) :=
  fun o => by cases o <;> decide
/-- Each clause at the edge of its range; no value falls under two. -/
theorem witness_FlagUpdateSetsExactlyOneFlag :
    (0x8000 : Word).getLsbD 15 = true ∧ (0x8000 : Word) ≠ 0 ∧ (0x0000 : Word).getLsbD 15 = false ∧
      (0x7FFF : Word).getLsbD 15 = false ∧ (0x7FFF : Word) ≠ 0 ∧ (0x0001 : Word).getLsbD 15 = false := by decide
theorem witness_MemoryWriteReadsBackAndChangesNoOtherCell : (0xFFFF : Word) ≠ 0x0000 := by decide
theorem witness_CanonicalMemoriesAreDeterminedByTheirReads :
    ∃ m n : Memory, m.wf ∧ n.wf ∧ m ≠ Memory.empty ∧ ∀ a : Word, m.read a = n.read a :=
  ⟨⟨[(0, 1), (65535, 2)]⟩, ⟨[(0, 1), (65535, 2)]⟩, by decide, by decide, by decide, fun _ => rfl⟩
theorem witness_StartRunsFromTheOrigin : State.reset.runState = .preRun := by decide
theorem witness_RunStateMovesOnlyAlongR61 :
    (∃ t, step State.reset = .next t ∧ State.reset.runState = .preRun) ∧
    (∃ t, step (at' 0x3000 0x0000) = .next t ∧ t.runState = .running) ∧
    (∃ t, step (at' 0x3000 0xF025) = .next t ∧ t.runState = .halted) ∧
    (∃ t, step { State.reset with runState := .halted } = .next t ∧ t.runState = .halted) ∧
    (at' 0x3000 0x0000).runState ≠ .preRun :=
  ⟨⟨_, rfl, rfl⟩, ⟨_, rfl, by decide⟩, ⟨_, rfl, by decide⟩, ⟨_, rfl, rfl⟩, by decide⟩
theorem witness_HaltedBlockChangesNothingEver : (after (at' 0x3000 0xF025)).runState = .halted := by decide
theorem witness_StepRunsTheDecodedInstruction :
    (at' 0xFFFF 0x1401).runState = .running ∧ (at' 0xFFFF 0x1401).phase = .ready ∧
      decodeWord ((at' 0xFFFF 0x1401).memRead 0xFFFF) = .ok (.addReg 2 0 1) := by decide
theorem witness_OnlyHaltAndFatalErrorsHalt :
    (∃ t, exec .halt (at' 0x3000 0) = .next t ∧ t.runState ≠ .running) ∧
    (∃ t, exec (.trap 0x26) (at' 0x3000 0) = .next t ∧ t.fatal ≠ none) :=
  ⟨⟨_, rfl, by decide⟩, ⟨_, rfl, by decide⟩⟩
/-- The empty string, and one cell at the top of memory before the wrap. -/
theorem witness_PutsWritesTheCellsBeforeTheFirstZeroCell :
    State.reset.memRead (State.reset.reg 0 + BitVec.ofNat 16 0) = 0 ∧
    let s := (State.reset.setReg 0 0xFFFF).memWrite 0xFFFF 0x0100
    (∀ k, k < 1 → s.memRead (s.reg 0 + BitVec.ofNat 16 k) ≠ 0) ∧ s.memRead (s.reg 0 + BitVec.ofNat 16 1) = 0 := by decide
theorem witness_PutspWritesThePackedCharacters :
    (State.reset.memRead (State.reset.reg 0 + BitVec.ofNat 16 0)).extractLsb 7 0 = 0 ∧
    let s := ((State.reset.setReg 0 0xFFFF).memWrite 0xFFFF 0x0041).memWrite 0x0000 0x4200
    (∀ k, k < 1 → (s.memRead (s.reg 0 + BitVec.ofNat 16 k)).extractLsb 7 0 ≠ 0) ∧
      (s.memRead (s.reg 0 + BitVec.ofNat 16 1)).extractLsb 7 0 = 0 := by decide

/-- Reading a memory that lists one word at each of some addresses. -/
theorem lookup_constant (w : Word) (l : List Nat) (a : Nat) (h : a ∈ l) :
    lookupCell (l.map fun b => (b, w)) a = w := by
  induction l with
  | nil => cases h
  | cons b rest ih =>
    by_cases hb : b = a
    · simp [lookupCell, hb]
    · have ha : a ∈ rest := by simpa [Ne.symm hb] using h
      simp [lookupCell, hb, ih ha]

/-- A Running block inside a step (`p`) over a memory that lists 0x4141 at each of some addresses. -/
def insideOver (p : Phase) (l : List Nat) : State :=
  { at' 0x3000 0 with mem := ⟨l.map fun b => (b, 0x4141)⟩, phase := p }

/-- With 0x4141 in every cell neither string service finds its end. -/
theorem no_terminator (p : Phase) (l : List Nat) (hl : ∀ a : Word, a.toNat ∈ l) :
    (∀ a : Word, (insideOver p l).memRead a ≠ 0) ∧ (∀ a : Word, ((insideOver p l).memRead a).extractLsb 7 0 ≠ 0) ∧
      (insideOver p l).runState = .running ∧ (insideOver p l).phase = p := by
  have h : ∀ a : Word, (insideOver p l).memRead a = 0x4141 := fun a => lookup_constant 0x4141 l a.toNat (hl a)
  refine ⟨fun a => ?_, fun a => ?_, rfl, rfl⟩
  · rw [h a]; decide
  · rw [h a]; decide

/-- One state inside each of the two services. -/
theorem witness_StringServicesWithNoTerminatorNeverComplete :
    ∀ p : Phase, ∃ s : State, (∀ a : Word, s.memRead a ≠ 0) ∧ (∀ a : Word, (s.memRead a).extractLsb 7 0 ≠ 0) ∧
      s.runState = .running ∧ s.phase = p :=
  fun p => ⟨_, no_terminator p (List.range Config.memSize) fun a => List.mem_range.mpr a.isLt⟩

theorem witness_InputServicesReadOneCharacter :
    ({ State.reset with consoleIn := [0xFF] } : State).consoleIn = 0xFF :: [] := by decide
theorem witness_InputServicesHoldWithoutACharacter : State.reset.consoleIn = [] := by decide
theorem witness_OnlyACharacterEndsTheInputHold :
    (after (at' 0x3000 0xF020)).runState = .running ∧ (after (at' 0x3000 0xF020)).phase = .inputHold ∧
    (after (at' 0x3000 0xF020)).consoleIn = [] ∧
    (supplyInput [0x61] (after (at' 0x3000 0xF020))).consoleIn = 0x61 :: [] := by decide
/-- The vectors on both sides of the six. -/
theorem witness_UnknownTrapVectorIsFatal :
    (0x1F : BitVec 8).toNat < 0x20 ∧ 0x25 < (0x26 : BitVec 8).toNat ∧ (0x00 : BitVec 8).toNat < 0x20 ∧
      0x25 < (0xFF : BitVec 8).toNat := by decide
theorem witness_TrapIsAServiceCall :
    (∃ t, exec (.trap 0x20) { at' 0x3000 0 with consoleIn := [0xFF] } = .next t ∧ t.reg 0 = 0x00FF) ∧
    (∃ t, exec (.trap 0x20) (at' 0x3000 0) = .next t ∧ t.runState = .running ∧ t.reg 0 = 0) ∧
    (∃ t, exec (.trap 0x21) ((at' 0x3000 0).setReg 0 0x1234) = .next t ∧ t.reg 0 = 0x1234) ∧
    (∃ t, exec (.trap 0x23) { at' 0x3000 0 with consoleIn := [0x37] } = .next t ∧ t.reg 0 = 0x37) ∧
    (∃ t, exec (.trap 0x24) (at' 0x3000 0) = .next t ∧ t.runState = .running) ∧
    (∃ t, exec (.trap 0x25) (at' 0x3000 0) = .next t ∧ t.runState = .halted) ∧
    ∃ t, exec (.trap 0x1F) (at' 0x3000 0) = .next t ∧ t.runState = .halted :=
  ⟨⟨_, rfl, by decide⟩, ⟨_, rfl, by decide⟩, ⟨_, rfl, by decide⟩, ⟨_, rfl, by decide⟩, ⟨_, rfl, by decide⟩,
    ⟨_, rfl, by decide⟩, ⟨_, rfl, by decide⟩⟩
theorem witness_ReservedWordStepsHaltWithThatWord :
    ((at' 0x3000 0x8FFF).memRead 0x3000).extractLsb 15 12 = 0x8 ∧
    ((at' 0x3000 0xD123).memRead 0x3000).extractLsb 15 12 = 0xD ∧ (at' 0x3000 0xD123).runState = .running ∧
    (at' 0x3000 0xD123).phase = .ready := by decide
/-- One word for each row of R18's table. -/
theorem witness_PcAfterEachInstructionIsThatOfR18 :
    (∃ t, step { at' 0x3000 0x0405 with cond := condZRO } = .next t ∧ t.pc = 0x3006) ∧
    (∃ t, step { at' 0x3000 0x0205 with cond := condZRO } = .next t ∧ t.pc = 0x3001) ∧
    (∃ t, step ((at' 0x3000 0xC080).setReg 2 0xFFFF) = .next t ∧ t.pc = 0xFFFF) ∧
    (∃ t, step (at' 0x3000 0x4810) = .next t ∧ t.pc = 0x3011) ∧
    (∃ t, step (at' 0x3005 0x41C0) = .next t ∧ t.pc = 0x3006) ∧
    ∃ t, step (at' 0xFFFF 0x1401) = .next t ∧ t.pc = 0x0000 :=
  ⟨⟨_, rfl, by decide⟩, ⟨_, rfl, by decide⟩, ⟨_, rfl, by decide⟩, ⟨_, rfl, by decide⟩, ⟨_, rfl, by decide⟩,
    ⟨_, rfl, by decide⟩⟩
theorem witness_FlagsFollowTheDestinationAndNothingElseWritesThem :
    flagDest (.lea 7 0) = some 7 ∧ (∃ t, exec (.lea 7 0) State.reset = .next t) ∧
    flagDest (.jsr 0) = none ∧ ∃ t, exec (.jsr 0) State.reset = .next t := ⟨rfl, ⟨_, rfl⟩, rfl, ⟨_, rfl⟩⟩
theorem witness_InstructionsWriteOnlyTheRegistersOfR14 :
    (∃ t, exec (.trap 0x23) State.reset = .next t) ∧ (1 : Reg) ∉ writtenRegs (.trap 0x23) := ⟨⟨_, rfl⟩, by decide⟩
theorem witness_OnlyStoresWriteMemoryAndOnlyAtTheirAddress :
    storeAddress (.st 0 0) State.reset = some 0x3000 ∧ (∃ t, exec (.st 0 0) State.reset = .next t) ∧
    storeAddress (.lea 0 0) State.reset = none ∧ ∃ t, exec (.lea 0 0) State.reset = .next t :=
  ⟨by decide, ⟨_, rfl⟩, rfl, ⟨_, rfl⟩⟩
theorem witness_CondIsObservableOnlyThroughBranches :
    (∀ mask off, Instr.getc ≠ .br mask off) ∧ ∃ t, exec .getc State.reset = .next t :=
  ⟨fun _ _ h => (by cases h), ⟨_, rfl⟩⟩
theorem witness_IrAndPcBeforeStartAreUnobservable :
    (at' 0x3000 0).runState = .running ∧ (at' 0x3000 0).phase = .ready ∧ State.reset.runState = .preRun := by decide
/-- ST, STI and STR, each storing HALT's word into the cell after its own; STR at the top of memory, where that cell is 0. -/
theorem witness_StoreIntoTheNextCellIsFetchedNext :
    (let s := (at' 0x3000 0x3200).setReg 1 0xF025
     s.runState = .running ∧ s.phase = .ready ∧ decodeWord (s.memRead s.pc) = .ok (.st 1 0) ∧
       storeAddress (.st 1 0) (fetch s) = some (s.pc + 1) ∧ storedReg (.st 1 0) = some 1 ∧
       decodeWord (s.reg 1) = .ok .halt ∧ (after s).memRead 0x3001 = 0xF025) ∧
    (let s := ((at' 0x3000 0xB201).setReg 1 0xF025).memWrite 0x3002 0x3001
     decodeWord (s.memRead s.pc) = .ok (.sti 1 1) ∧ storeAddress (.sti 1 1) (fetch s) = some (s.pc + 1) ∧
       storedReg (.sti 1 1) = some 1 ∧ (after s).memRead 0x3001 = 0xF025) ∧
    (let s := (at' 0xFFFF 0x7281).setReg 1 0xF025
     let s := s.setReg 2 0xFFFF
     decodeWord (s.memRead s.pc) = .ok (.str 1 2 1) ∧ storeAddress (.str 1 2 1) (fetch s) = some (s.pc + 1) ∧
       storedReg (.str 1 2 1) = some 1 ∧ (after s).memRead 0x0000 = 0xF025) := by decide
theorem witness_FatalStatusNeverChanges : ∃ s t : State, s.Inv ∧ s.fatal = some ⟨.unknownTrap, 0x99⟩ ∧ step s = .next t :=
  ⟨{ State.reset with
      runState := .halted, fatal := some ⟨.unknownTrap, 0x99⟩, consoleOut := [.err ⟨.unknownTrap, 0x99⟩] }, _,
    ⟨by decide, .inl rfl, fun _ _ => rfl, fun h => absurd rfl h, by decide⟩, rfl, rfl⟩
theorem witness_ConsoleStreamsMoveOneWay : ∃ t, step (at' 0x3000 0xF023) = .next t ∧ t.consoleOut ≠ [] :=
  ⟨_, rfl, by decide⟩
theorem witness_LoaderFillsConsecutiveCellsFromTheOrigin :
    State.reset.runState = .preRun ∧ (List.replicate 0xD000 (0xF025 : Word)).length ≤ 0xD000 ∧ imageWords [] = some [] :=
  ⟨rfl, Nat.le_of_eq List.length_replicate, rfl⟩
theorem witness_HostWritesCellsBeforeStartAndSuppliesInputAnyTime :
    (loadCell 0xFFFF 0x1234 State.reset).map (fun t => (t.memRead 0xFFFF, t.memRead 0x0000)) = some (0x1234, 0) ∧
      (supplyInput [0x61, 0x62] { State.reset with consoleIn := [0x60] }).consoleIn = [0x60, 0x61, 0x62] := by decide
/-- Running and Halted; 0xD001 words, one more than fit; an odd byte, and one word too many as bytes. -/
theorem witness_LoadsOutsidePreRunAndImagesThatDoNotFitAreTurnedAway :
    (after State.reset).runState ≠ .preRun ∧ (after (at' 0x3000 0xF025)).runState ≠ .preRun ∧
      0xD000 < (List.replicate 0xD001 (0 : Word)).length ∧ ([0x25] : List Byte).length % 2 = 1 ∧
      2 * 0xD000 < (List.replicate 0x1A002 (0 : Byte)).length :=
  ⟨by decide, by decide, by rw [List.length_replicate]; omega, by decide, by rw [List.length_replicate]; omega⟩
/-- COND_RESET ZRO, the reading of C1 that the spec does not take, and a MEM_INIT that is not empty. -/
theorem witness_InvariantsHoldAtReset : legalCond condZRO ∧ (Memory.mk [(0x3000, 0xF025)]).wf ∧
    State.reset ≠ State.resetWith condZRO (Memory.mk [(0x3000, 0xF025)]) [0x61] :=
  ⟨.inr (.inr (.inl rfl)), by decide, by decide⟩
theorem witness_HostOperationsKeepTheInvariants :
    State.reset.Inv ∧ State.reset.FatalCaused ∧ State.reset.OutputFlushed ∧
    (∃ t, loadWords [0xF025] State.reset = some t) ∧ (∃ t, loadImage [0x25, 0xF0] State.reset = some t) ∧
    ∃ t, loadCell 0xFFFF 1 State.reset = some t :=
  ⟨⟨by decide, .inl rfl, fun _ h => (by cases h), fun h => absurd rfl h, by decide⟩, fun _ h => (by cases h),
    fun _ => rfl, ⟨_, rfl⟩, ⟨_, rfl⟩, ⟨_, rfl⟩⟩
theorem witness_InvariantsOfReset :
    State.reset.Inv ∧ State.reset.FatalCaused ∧ State.reset.OutputFlushed ∧ ∃ t, step State.reset = .next t :=
  ⟨⟨by decide, .inl rfl, fun _ h => (by cases h), fun h => absurd rfl h, by decide⟩, fun _ h => (by cases h),
    fun _ => rfl, ⟨_, rfl⟩⟩
theorem witness_ExactlyOneFlagFromTheFirstFlagUpdateOn :
    oneFlag (after (at' 0x3000 0x1021)).cond ∧ flagDest (.addImm 0 0 1) = some 0 ∧
      ∃ t, step { at' 0x3000 0 with cond := condPOS } = .next t := ⟨.inr (.inr (by decide)), rfl, ⟨_, rfl⟩⟩

end Sys2Proof.Tests
end

/-! # Sign extension and zero extension (spec 00_scope.md R8) -/

namespace Sys2Proof.Machine

/-- The case split of R8 with the field's highest bit named by its position. -/
theorem sext_eq_ite_getLsbD {n : Nat} (v : BitVec n) :
    sext v = if v.getLsbD (n - 1) then v.setWidth 16 ||| ((0xFFFF : Word) <<< n) else v.setWidth 16 := by
  rw [sext, BitVec.msb_eq_getLsbD_last]

theorem toInt_sext {n : Nat} (v : BitVec n) (h : n ≤ 16) : (sext v).toInt = v.toInt := by
  rw [sext_eq_signExtend v h, BitVec.toInt_signExtend_of_le h]

theorem zext16_extractLsb_low (b : Byte) : (zext16 b).extractLsb 7 0 = b := by
  apply BitVec.eq_of_toNat_eq
  simpa [zext16] using b.isLt

/-- Every bit read lies beyond the eight bits of `b`. -/
theorem zext16_extractLsb_high (b : Byte) : (zext16 b).extractLsb 15 8 = 0 := by
  ext i hi
  simp [zext16]

/-- Settles O7: both clauses about `sext` are instances of facts for every field width up to 16. -/
theorem signExtensionIsTwosComplement : Obligations.SignExtensionIsTwosComplement :=
  ⟨fun v => ⟨sext_eq_ite_getLsbD v, toInt_sext v (by omega)⟩,
    fun v => ⟨sext_eq_ite_getLsbD v, toInt_sext v (by omega)⟩,
    fun v => ⟨sext_eq_ite_getLsbD v, toInt_sext v (by omega)⟩,
    fun v => ⟨sext_eq_ite_getLsbD v, toInt_sext v (by omega)⟩,
    fun b => ⟨zext16_extractLsb_low b, zext16_extractLsb_high b⟩⟩

end Sys2Proof.Machine

/-! # The state (spec 10_state.md): COND, the registers, PC, FATAL, reset, and the machine's invariant -/

/-! ## What the console services leave unchanged -/

namespace Sys2Proof.Machine

/-- The input part of GETC and IN moves R0, the phase and CONSOLE_IN only (R99, R102). -/
@[simp] theorem inputToR0_frame (s : State) :
    (inputToR0 s).cond = s.cond ∧ (inputToR0 s).pc = s.pc ∧ (inputToR0 s).mem = s.mem ∧
      (inputToR0 s).runState = s.runState ∧ (inputToR0 s).fatal = s.fatal ∧
      (inputToR0 s).consoleOut = s.consoleOut := by
  obtain ⟨c, rest, -, e⟩ | ⟨-, e⟩ := inputToR0_cases s <;> rw [e] <;> simp

theorem reg_inputToR0 (s : State) (r : Reg) (hr : r ≠ 0) : (inputToR0 s).reg r = s.reg r := by
  obtain ⟨c, rest, -, e⟩ | ⟨-, e⟩ := inputToR0_cases s <;> rw [e]
  · exact (reg_setReg _ 0 r _).trans (if_neg hr)
  · rfl

/-- A string service moves the phase and the output trace only (R101, R103). -/
@[simp] theorem serviceString_frame (stop : Word → Bool) (chars : Word → List Byte) (loop : Phase) (s : State) :
    (serviceString stop chars loop s).regs = s.regs ∧ (serviceString stop chars loop s).cond = s.cond ∧
      (serviceString stop chars loop s).pc = s.pc ∧ (serviceString stop chars loop s).mem = s.mem ∧
      (serviceString stop chars loop s).runState = s.runState ∧
      (serviceString stop chars loop s).fatal = s.fatal := by
  obtain ⟨cs, e⟩ | ⟨cs, e⟩ := serviceString_cases stop chars loop s <;> rw [e] <;> simp

/-- No trap service, and no unknown vector, writes COND, PC or memory (R111). -/
@[simp] theorem dispatchTrap_frame (v : BitVec 8) (s : State) :
    (dispatchTrap v s).cond = s.cond ∧ (dispatchTrap v s).pc = s.pc ∧ (dispatchTrap v s).mem = s.mem := by
  obtain ⟨-, e⟩ | ⟨-, e⟩ | ⟨-, e⟩ | ⟨-, e⟩ | ⟨-, e⟩ | ⟨-, e⟩ | ⟨-, e⟩ := dispatchTrap_cases v s <;>
    simp [e, serviceOut, servicePuts, servicePutsp, serviceHalt]

/-- The trap vectors that write a general register are those of GETC and IN, and the register is R0 (R14). -/
theorem reg_dispatchTrap (v : BitVec 8) (s : State) (r : Reg) (hr : (v = 0x20 ∨ v = 0x23) → r ≠ 0) :
    (dispatchTrap v s).reg r = s.reg r := by
  obtain ⟨hv, e⟩ | ⟨-, e⟩ | ⟨-, e⟩ | ⟨hv, e⟩ | ⟨-, e⟩ | ⟨-, e⟩ | ⟨-, e⟩ := dispatchTrap_cases v s <;> rw [e]
  · exact reg_inputToR0 s r (hr (.inl hv))
  · rfl
  · simp [State.reg, servicePuts]
  · exact reg_inputToR0 _ r (hr (.inr hv))
  · simp [State.reg, servicePutsp]
  · rfl
  · rfl

/-- A trap instruction is the dispatch on its vector (R93). -/
theorem exec_of_trapVector {i : Instr} {v : BitVec 8} (h : trapVector i = some v) (s : State) :
    exec i s = .next (dispatchTrap v s) := by
  cases i <;> cases h <;> rfl

/-! ## COND (R20 to R24) -/

theorem oneFlag_condOf (v : Word) : oneFlag (condOf v) := by
  obtain ⟨-, e⟩ | ⟨-, e⟩ | ⟨-, -, e⟩ := condOf_cases v <;> simp [oneFlag, e]

theorem legalCond_of_oneFlag {c : BitVec 3} (h : oneFlag c) : legalCond c := .inr h

/-- An instruction with a flag destination ends in `writeResult` there; any other leaves COND as it is (R22). -/
theorem exec_cond_cases {i : Instr} {s t : State} (h : exec i s = .next t) :
    (∃ d v, flagDest i = some d ∧ t = writeResult d v s) ∨ (flagDest i = none ∧ t.cond = s.cond) := by
  obtain ⟨d, v, hd, -, -, -, rfl⟩ | ⟨a, v, -, hd, -, rfl⟩ | ⟨v, hd, -, -, rfl⟩ | ⟨v, hd, -, -, -, rfl⟩ |
    ⟨v, -, hd, -, rfl⟩ | ⟨hi, rfl⟩ := exec_cases h
  · exact .inl ⟨d, v, hd, rfl⟩
  · exact .inr ⟨hd, rfl⟩
  · exact .inr ⟨hd, rfl⟩
  · exact .inr ⟨hd, rfl⟩
  · exact .inr ⟨hd, by simp⟩
  · exact .inr ⟨by obtain rfl | rfl := hi <;> rfl, rfl⟩

/-- A step leaves COND as it is or makes it the flag of some value. -/
theorem step_cond_cases {s t : State} (h : step s = .next t) : t.cond = s.cond ∨ ∃ v, t.cond = condOf v := by
  obtain ⟨-, rfl⟩ | ⟨-, rfl⟩ | ⟨-, -, i, -, hi⟩ | ⟨-, -, rfl⟩ | ⟨-, -, rfl⟩ | ⟨-, -, rfl⟩ := step_cases h
  · obtain ⟨-, e⟩ | ⟨-, e⟩ := start_cases s <;> simp [e]
  · exact .inl rfl
  · obtain ⟨d, v, -, rfl⟩ | ⟨-, e⟩ := exec_cond_cases hi
    · exact .inr ⟨v, rfl⟩
    · exact .inl e
  · simp
  · simp [servicePuts]
  · simp [servicePutsp]

/-- Settles O8: `setcc` writes COND alone, and the tests of `condOf` are those of R20 in that order. -/
theorem flagUpdateSetsExactlyOneFlag : Obligations.FlagUpdateSetsExactlyOneFlag := by
  intro v s
  refine ⟨fun hn => if_pos hn, ?_, fun hn hz => ?_, fun _ => rfl, rfl, fun _ => rfl, ⟨rfl, rfl⟩, ⟨rfl, rfl, rfl, rfl⟩⟩
  · rintro rfl; rfl
  · exact (if_neg (by simpa using hn)).trans (if_neg hz)

/-- Settles O43, by the two ways an instruction can end. -/
theorem flagsFollowTheDestinationAndNothingElseWritesThem :
    Obligations.FlagsFollowTheDestinationAndNothingElseWritesThem := by
  intro i s t h
  obtain ⟨d, v, hd, rfl⟩ | ⟨hd, hc⟩ := exec_cond_cases h
  · simp [hd, reg_writeResult]
  · simp [hd, hc]

/-- Settles O56: the only writes of COND are of the flag of a value. -/
theorem exactlyOneFlagFromTheFirstFlagUpdateOn : Obligations.ExactlyOneFlagFromTheFirstFlagUpdateOn := by
  refine ⟨fun i s t d hd h => ?_, fun s t hs h => ?_⟩
  · obtain ⟨d', v, -, rfl⟩ | ⟨hn, -⟩ := exec_cond_cases h
    · exact oneFlag_condOf v
    · simp [hd] at hn
  · obtain e | ⟨v, e⟩ := step_cond_cases h
    · rwa [e]
    · rw [e]; exact oneFlag_condOf v

/-! ### Runs that differ in COND alone (R23) -/

theorem inputToR0_with_cond (s : State) (c : BitVec 3) :
    inputToR0 { s with cond := c } = { inputToR0 s with cond := c } := by
  obtain ⟨ch, rest, h, e⟩ | ⟨h, e⟩ := inputToR0_cases s
  · rw [e, inputToR0_of_char { s with cond := c } ch rest h]; rfl
  · rw [e, inputToR0_of_empty { s with cond := c } h]

theorem serviceString_with_cond (stop : Word → Bool) (chars : Word → List Byte) (loop : Phase) (s : State)
    (c : BitVec 3) :
    serviceString stop chars loop { s with cond := c } = { serviceString stop chars loop s with cond := c } := by
  rcases h : scanCells s.mem stop chars Config.memSize (s.reg 0) with ⟨cs, _ | _⟩
  · rw [serviceString_of_endless_scan stop chars loop s cs h,
      serviceString_of_endless_scan stop chars loop { s with cond := c } cs h]
    rfl
  · rw [serviceString_of_scan stop chars loop s cs h,
      serviceString_of_scan stop chars loop { s with cond := c } cs h]
    rfl

theorem dispatchTrap_with_cond (v : BitVec 8) (s : State) (c : BitVec 3) :
    dispatchTrap v { s with cond := c } = { dispatchTrap v s with cond := c } := by
  obtain ⟨rfl, -⟩ | ⟨rfl, -⟩ | ⟨rfl, -⟩ | ⟨rfl, -⟩ | ⟨rfl, -⟩ | ⟨rfl, -⟩ | ⟨hv, e⟩ := dispatchTrap_cases v s
  · exact inputToR0_with_cond s c
  · rfl
  · exact serviceString_with_cond _ _ _ s c
  · exact inputToR0_with_cond (conFlush (conOutAll inPrompt s)) c
  · exact serviceString_with_cond _ _ _ s c
  · rfl
  · rw [e, dispatchTrap_unknown v _ hv]; rfl

theorem exec_with_cond_of_trapVector {i : Instr} {v : BitVec 8} {s t : State} (hv : trapVector i = some v)
    (h : exec i s = .next t) (c : BitVec 3) : exec i { s with cond := c } = .next { t with cond := c } := by
  rw [exec_of_trapVector hv] at h ⊢
  cases h
  rw [dispatchTrap_with_cond]

/-- Settles O46: only BR's handler reads COND. -/
theorem condIsObservableOnlyThroughBranches : Obligations.CondIsObservableOnlyThroughBranches := by
  intro i s t c hbr h
  cases i
  case br mask off => exact absurd rfl (hbr mask off)
  case getc | out | puts | inp | putsp | halt | trap => exact exec_with_cond_of_trapVector rfl h c
  all_goals cases h; rfl

/-! ## The general registers (R14) -/

theorem writtenRegs_of_trapVector {i : Instr} {v : BitVec 8} (h : trapVector i = some v) :
    writtenRegs i = if v = 0x20 ∨ v = 0x23 then [0] else [] := by
  cases i <;> cases h <;> rfl

/-- Settles O44, along what an instruction can do. -/
theorem instructionsWriteOnlyTheRegistersOfR14 : Obligations.InstructionsWriteOnlyTheRegistersOfR14 := by
  intro i s t h r hr
  obtain ⟨d, v, -, hw, -, -, rfl⟩ | ⟨a, v, -, -, -, rfl⟩ | ⟨v, -, -, -, rfl⟩ | ⟨v, -, -, -, hw, rfl⟩ |
    ⟨v, hv, -, -, rfl⟩ | ⟨-, rfl⟩ := exec_cases h
  · rw [reg_writeResult, if_neg (by simpa [hw] using hr)]
  · rfl
  · rfl
  · rw [reg_setPc, reg_setReg, if_neg (by simpa [hw] using hr)]
  · refine reg_dispatchTrap v s r fun hin => ?_
    rw [writtenRegs_of_trapVector hv, if_pos hin] at hr
    simpa using hr
  · rfl

/-! ## PC (R18) -/

/-- PC after an instruction, from the state its handler runs in: the table of R18 in the model's own operands. -/
def nextPc (i : Instr) (s : State) : Word :=
  match i with
  | .br mask off => if condTaken mask s.cond then eaPc9 off s else s.pc
  | .jmp base => s.reg base
  | .jsr off => targetPc11 off s
  | .jsrr base => (s.setReg 7 s.pc).reg base
  | _ => s.pc

theorem exec_pc_of_trapVector {i : Instr} {v : BitVec 8} {s t : State} (hv : trapVector i = some v)
    (h : exec i s = .next t) : t.pc = s.pc := by
  rw [exec_of_trapVector hv] at h
  cases h
  simp

theorem exec_pc {i : Instr} {s t : State} (h : exec i s = .next t) : t.pc = nextPc i s := by
  cases i
  case br mask off => cases h; rw [nextPc, apply_ite State.pc, setPc_pc]
  case getc | out | puts | inp | putsp | halt | trap => exact exec_pc_of_trapVector rfl h
  all_goals cases h; rfl

theorem step_of_ready {s : State} (hr : s.runState = .running) (hp : s.phase = .ready) :
    step s = instructionStep s := by
  simp [step, runningStep, hr, hp]

/-- Between steps a Running block runs the instruction it fetches (R64). -/
theorem exec_of_step {s t : State} {i : Instr} (hr : s.runState = .running) (hp : s.phase = .ready)
    (hi : decodeWord (s.memRead s.pc) = .ok i) (h : step s = .next t) : exec i (fetch s) = .next t := by
  have hi' : decodeWord (fetch s).ir = .ok i := hi
  simpa only [step_of_ready hr hp, instructionStep, dispatch, hi'] using h

/-- Settles O42: `nextPc` after the fetch is the table of R18. -/
theorem pcAfterEachInstructionIsThatOfR18 : Obligations.PcAfterEachInstructionIsThatOfR18 := by
  intro s t i hr hp hi h
  rw [exec_pc (exec_of_step hr hp hi h)]
  cases i
  case br mask off => simp [nextPc, condTaken, eaPc9, sext_eq_signExtend]
  case jsr off => simp [nextPc, targetPc11, sext_eq_signExtend]
  case jsrr base => simp [nextPc, reg_setReg]
  all_goals rfl

/-! ## Reset, start and Halted (R32, R61) -/

theorem step_of_preRun {s : State} (h : s.runState = .preRun) :
    step s = .next { s with runState := .running, pc := Config.origin } := by
  simp [step, preRunStep, start, h]

theorem step_of_halted {s : State} (h : s.runState = .halted) : step s = .next s := by
  simp [step, haltedStep, h]

/-- Settles O13: each clause is a field of `State.resetWith`, and `State.reset` is its value at the defaults. -/
theorem resetStateIsThatOfR32 : Obligations.ResetStateIsThatOfR32 := by
  refine ⟨fun c m inp => ⟨fun r => ?_, rfl, rfl, rfl, rfl, rfl, rfl, rfl⟩, rfl⟩
  simp [State.reg, State.resetWith]

/-- Settles O47: fetch overwrites IR and start overwrites PC. -/
theorem irAndPcBeforeStartAreUnobservable : Obligations.IrAndPcBeforeStartAreUnobservable := by
  refine fun s w => ⟨fun hr hp => ?_, fun h => ?_⟩
  · exact (step_of_ready (s := { s with ir := w }) hr hp).trans (step_of_ready hr hp).symm
  · exact (step_of_preRun (s := { s with pc := w }) h).trans (step_of_preRun h).symm

/-! ## The machine's invariant -/

@[simp] theorem diagnostics_append (a b : List ConEvent) : diagnostics (a ++ b) = diagnostics a ++ diagnostics b :=
  List.filterMap_append

@[simp] theorem diagnostics_map_out (cs : List Byte) : diagnostics (cs.map .out) = [] := by
  simp [diagnostics]

@[simp] theorem diagnostics_nil : diagnostics [] = [] := rfl
@[simp] theorem diagnostics_out (c : Byte) (evs : List ConEvent) :
    diagnostics (.out c :: evs) = diagnostics evs := rfl
@[simp] theorem diagnostics_flush (evs : List ConEvent) : diagnostics (.flush :: evs) = diagnostics evs := rfl
@[simp] theorem diagnostics_err (r : FatalRecord) (evs : List ConEvent) :
    diagnostics (.err r :: evs) = r :: diagnostics evs := rfl

@[simp] theorem diagnostics_serviceString (stop : Word → Bool) (chars : Word → List Byte) (loop : Phase) (s : State) :
    diagnostics (serviceString stop chars loop s).consoleOut = diagnostics s.consoleOut := by
  obtain ⟨cs, e⟩ | ⟨cs, e⟩ := serviceString_cases stop chars loop s <;> rw [e] <;> simp

section

variable {s t : State}

theorem State.Inv.fatal_none (hs : s.Inv) (h : s.runState ≠ .halted) : s.fatal = none :=
  Option.eq_none_iff_forall_ne_some.mpr fun r hr => h (hs.fatalIsHalted r hr)

theorem State.Inv.diagnostics_eq_nil (hs : s.Inv) (h : s.runState ≠ .halted) : diagnostics s.consoleOut = [] := by
  rw [hs.diagnosticsAreFatal, hs.fatal_none h]; rfl

/-- From a block that is not Halted, an update into Running that raises no fatal error keeps the invariant when it keeps the
memory's form and COND's. -/
theorem State.Inv.of_running (hs : s.Inv) (h : s.runState ≠ .halted) (hm : t.mem.wf) (hc : legalCond t.cond)
    (hr : t.runState = .running) (hf : t.fatal = s.fatal)
    (ho : diagnostics t.consoleOut = diagnostics s.consoleOut) : t.Inv where
  memCanonical := hm
  condLegal := hc
  fatalIsHalted r hr := by simp [hf, hs.fatal_none h] at hr
  midStepIsRunning _ := hr
  diagnosticsAreFatal := by rw [ho, hf, hs.diagnosticsAreFatal]

/-- Start keeps the invariant (R62). -/
theorem start_inv (hs : s.Inv) : (start s).Inv := by
  obtain ⟨h, e⟩ | ⟨-, e⟩ := start_cases s <;> rw [e]
  · exact hs.of_running (by simp [h]) hs.memCanonical hs.condLegal rfl rfl rfl
  · exact hs

/-- The input part of GETC and IN keeps the invariant (R70). -/
theorem inputToR0_inv (hs : s.Inv) (h : s.runState = .running) : (inputToR0 s).Inv :=
  hs.of_running (by simp [h]) (by simpa using hs.memCanonical) (by simpa using hs.condLegal) (by simp [h])
    (by simp) (by simp)

theorem serviceString_inv (hs : s.Inv) (h : s.runState = .running) (stop : Word → Bool) (chars : Word → List Byte)
    (loop : Phase) : (serviceString stop chars loop s).Inv :=
  hs.of_running (by simp [h]) (by simpa using hs.memCanonical) (by simpa using hs.condLegal) (by simp [h])
    (by simp) (by simp)

theorem serviceHalt_inv (hs : s.Inv) (hp : s.phase = .ready) : (serviceHalt s).Inv where
  memCanonical := hs.memCanonical
  condLegal := hs.condLegal
  fatalIsHalted _ _ := rfl
  midStepIsRunning hne := absurd hp hne
  diagnosticsAreFatal := by simpa [serviceHalt] using hs.diagnosticsAreFatal

/-- The one fatal entry adds the one diagnostic to a trace that had none. -/
theorem raiseFatal_inv (hs : s.Inv) (h : s.runState = .running) (hp : s.phase = .ready) (q : FatalReason) (w : Word) :
    (raiseFatal q w s).Inv where
  memCanonical := hs.memCanonical
  condLegal := hs.condLegal
  fatalIsHalted _ _ := rfl
  midStepIsRunning hne := absurd hp hne
  diagnosticsAreFatal := by simp [hs.diagnostics_eq_nil (by simp [h])]

theorem dispatchTrap_inv (hs : s.Inv) (h : s.runState = .running) (hp : s.phase = .ready) (v : BitVec 8) :
    (dispatchTrap v s).Inv := by
  obtain ⟨-, e⟩ | ⟨-, e⟩ | ⟨-, e⟩ | ⟨-, e⟩ | ⟨-, e⟩ | ⟨-, e⟩ | ⟨-, e⟩ := dispatchTrap_cases v s <;> rw [e]
  · exact inputToR0_inv hs h
  · exact hs.of_running (by simp [h]) hs.memCanonical hs.condLegal h rfl (by simp [serviceOut])
  · exact serviceString_inv hs h _ _ _
  · have hprompt : (conFlush (conOutAll inPrompt s)).Inv :=
      hs.of_running (by simp [h]) hs.memCanonical hs.condLegal h rfl (by simp)
    exact inputToR0_inv hprompt h
  · exact serviceString_inv hs h _ _ _
  · exact serviceHalt_inv hs hp
  · exact raiseFatal_inv hs h hp _ _

/-- Every handler, run between steps, keeps the invariant. -/
theorem exec_inv {i : Instr} (hs : s.Inv) (h : s.runState = .running) (hp : s.phase = .ready)
    (he : exec i s = .next t) : t.Inv := by
  have hne : s.runState ≠ .halted := by simp [h]
  obtain ⟨d, v, -, -, -, -, rfl⟩ | ⟨a, v, -, -, -, rfl⟩ | ⟨v, -, -, -, rfl⟩ | ⟨v, -, -, -, -, rfl⟩ |
    ⟨v, -, -, -, rfl⟩ | ⟨-, rfl⟩ := exec_cases he
  · exact hs.of_running hne hs.memCanonical (legalCond_of_oneFlag (oneFlag_condOf v)) h rfl rfl
  · exact hs.of_running hne (write_wf s.mem a v hs.memCanonical) hs.condLegal h rfl rfl
  · exact hs.of_running hne hs.memCanonical hs.condLegal h rfl rfl
  · exact hs.of_running hne hs.memCanonical hs.condLegal h rfl rfl
  · exact dispatchTrap_inv hs h hp v
  · exact raiseFatal_inv hs h hp _ _

/-- Fetch and increment keep the invariant (R65, R66). -/
theorem fetch_inv (hs : s.Inv) (h : s.runState = .running) : (fetch s).Inv :=
  hs.of_running (by simp [h]) hs.memCanonical hs.condLegal h rfl rfl

end

/-- Settles O53: a step that stays Running raises no fatal error, and the two ways out of Running (HALT, the fatal entry) are
taken only between steps. -/
theorem everyStepKeepsTheInvariant : Obligations.EveryStepKeepsTheInvariant := by
  intro s t hs h
  obtain ⟨-, rfl⟩ | ⟨-, rfl⟩ | ⟨hr, hp, i, -, he⟩ | ⟨hr, -, rfl⟩ | ⟨hr, -, rfl⟩ | ⟨hr, -, rfl⟩ := step_cases h
  · exact start_inv hs
  · exact hs
  · exact exec_inv (fetch_inv hs hr) hr hp he
  · exact inputToR0_inv hs hr
  · exact serviceString_inv hs hr _ _ _
  · exact serviceString_inv hs hr _ _ _

/-- Settles O49: a fatal status stands only in Halted, where a step changes nothing. -/
theorem fatalStatusNeverChanges : Obligations.FatalStatusNeverChanges := by
  intro s t r hs hf h
  rw [step_of_halted (hs.fatalIsHalted r hf)] at h
  cases h
  exact hf

theorem resetWith_inv {c : BitVec 3} {m : Memory} (inp : List Byte) (hc : legalCond c) (hm : m.wf) :
    (State.resetWith c m inp).Inv where
  memCanonical := hm
  condLegal := hc
  fatalIsHalted _ h := nomatch h
  midStepIsRunning h := absurd rfl h
  diagnosticsAreFatal := rfl

theorem resetWith_fatalCaused (c : BitVec 3) (m : Memory) (inp : List Byte) :
    (State.resetWith c m inp).FatalCaused := fun _ h => nomatch h

theorem resetWith_outputFlushed (c : BitVec 3) (m : Memory) (inp : List Byte) :
    (State.resetWith c m inp).OutputFlushed := fun _ => rfl

/-- Settles O52; `State.reset` is the state at COND_RESET NONE and the empty memory. -/
theorem invariantsHoldAtReset : Obligations.InvariantsHoldAtReset :=
  ⟨fun c m inp hc hm => ⟨resetWith_inv inp hc hm, resetWith_fatalCaused c m inp, resetWith_outputFlushed c m inp⟩,
    resetWith_inv _ (.inl rfl) empty_wf, resetWith_fatalCaused _ _ _, resetWith_outputFlushed _ _ _⟩

end Sys2Proof.Machine

/-! # Memory (spec 20_memory.md): reads after writes, the canonical form, and who writes memory -/

namespace Sys2Proof.Machine

/-- Settles O9, by the law of a read after a write. -/
theorem memoryWriteReadsBackAndChangesNoOtherCell : Obligations.MemoryWriteReadsBackAndChangesNoOtherCell := by
  intro s a v
  refine ⟨?_, fun b hb => ?_⟩
  · rw [memRead_memWrite, if_pos rfl]
  · rw [memRead_memWrite, if_neg hb]

/-! ## The canonical form (R36) -/

/-- A cell listed at rising addresses is the one its address looks up. -/
theorem lookupCell_of_mem {l : List (Nat × Word)} (hl : l.Pairwise fun c d => c.1 < d.1) {c : Nat × Word}
    (hc : c ∈ l) : lookupCell l c.1 = c.2 := by
  induction l with
  | nil => cases hc
  | cons d rest ih =>
    obtain ⟨hd, hrest⟩ := List.pairwise_cons.mp hl
    obtain rfl | hc := List.mem_cons.mp hc
    · exact if_pos rfl
    · exact (if_neg (hd c hc).ne).trans (ih hrest hc)

/-- An address that reads as no unlisted one does is listed. -/
theorem mem_of_lookupCell_ne {l : List (Nat × Word)} {a : Nat} (h : lookupCell l a ≠ unlistedCell) :
    (a, lookupCell l a) ∈ l := by
  induction l with
  | nil => exact absurd rfl h
  | cons d rest ih =>
    by_cases hd : d.1 = a
    · simp [lookupCell, ← hd]
    · simp only [lookupCell, if_neg hd] at h ⊢
      exact List.mem_cons_of_mem d (ih h)

/-- The cells a canonical memory lists are the addresses that do not read as unlisted, each with what it reads as. -/
theorem mem_cells_iff {m : Memory} (hm : m.wf) (c : Nat × Word) :
    c ∈ m.cells ↔ ∃ a : Word, m.read a ≠ unlistedCell ∧ (a.toNat, m.read a) = c := by
  obtain ⟨hrising, hlisted⟩ := hm
  constructor
  · intro hc
    obtain ⟨haddr, hval⟩ := hlisted c hc
    have ha : (BitVec.ofNat 16 c.1).toNat = c.1 := Nat.mod_eq_of_lt haddr
    have hread : m.read (BitVec.ofNat 16 c.1) = c.2 := by rw [Memory.read, ha, lookupCell_of_mem hrising hc]
    exact ⟨BitVec.ofNat 16 c.1, by rwa [hread], by rw [ha, hread]⟩
  · rintro ⟨a, hne, rfl⟩
    exact mem_of_lookupCell_ne hne

/-- Settles O10: the reads fix which cells are listed, and the rising addresses fix their order. -/
theorem canonicalMemoriesAreDeterminedByTheirReads : Obligations.CanonicalMemoriesAreDeterminedByTheirReads := by
  intro m n hm hn hread
  have hmem : ∀ c, c ∈ m.cells ↔ c ∈ n.cells := fun c => by
    simp only [mem_cells_iff hm, mem_cells_iff hn, hread]
  have : Std.Irrefl fun c d : Nat × Word => c.1 < d.1 := ⟨fun c => Nat.lt_irrefl c.1⟩
  have : Std.Antisymm fun c d : Nat × Word => c.1 < d.1 := ⟨fun _ _ h h' => absurd h' h.asymm⟩
  exact congrArg Memory.mk (hm.1.eq_of_mem_iff hn.1 hmem)

/-! ## The stores (R37, R41, R47) -/

/-- An instruction with a store address ends in a write there; any other leaves memory as it is (R37, R41). -/
theorem exec_mem_cases {i : Instr} {s t : State} (h : exec i s = .next t) :
    (∃ a v, storeAddress i s = some a ∧ t = s.memWrite a v) ∨ (storeAddress i s = none ∧ t.mem = s.mem) := by
  obtain ⟨d, v, -, -, ha, -, rfl⟩ | ⟨a, v, ha, -, -, rfl⟩ | ⟨v, -, ha, -, rfl⟩ | ⟨v, -, ha, -, -, rfl⟩ |
    ⟨v, -, -, ha, rfl⟩ | ⟨hi, rfl⟩ := exec_cases h
  · exact .inr ⟨ha, rfl⟩
  · exact .inl ⟨a, v, ha, rfl⟩
  · exact .inr ⟨ha, rfl⟩
  · exact .inr ⟨ha, rfl⟩
  · exact .inr ⟨ha, by simp⟩
  · exact .inr ⟨by obtain rfl | rfl := hi <;> rfl, rfl⟩

theorem sameMemory_of_mem_eq {s t : State} (h : t.mem = s.mem) : SameMemory s t :=
  fun a => congrArg (Memory.read · a) h

/-- Settles O45, by the two things an instruction can do to memory. -/
theorem onlyStoresWriteMemoryAndOnlyAtTheirAddress : Obligations.OnlyStoresWriteMemoryAndOnlyAtTheirAddress := by
  intro i s t h
  obtain ⟨a, v, ha, rfl⟩ | ⟨hnone, hmem⟩ := exec_mem_cases h
  · refine ⟨fun a' ha' b hb => ?_, fun hnone => by simp [ha] at hnone⟩
    obtain rfl : a = a' := Option.some.inj (ha.symm.trans ha')
    rw [memRead_memWrite, if_neg hb]
  · exact ⟨fun a ha => by simp [hnone] at ha, fun _ => sameMemory_of_mem_eq hmem⟩

/-- ST, STI and STR write the register they store at their address and do nothing else (R84, R85, R86). -/
theorem exec_of_store {i : Instr} {s : State} {a : Word} {sr : Reg} (ha : storeAddress i s = some a)
    (hsr : storedReg i = some sr) : exec i s = .next (s.memWrite a (s.reg sr)) := by
  cases i
  case st | sti | str => cases ha; cases hsr; rfl
  all_goals cases hsr

/-- Between steps a Running block is the handler of the word at PC, run after the fetch (R64). -/
theorem step_eq_exec {s : State} {i : Instr} (hr : s.runState = .running) (hp : s.phase = .ready)
    (hi : decodeWord (s.memRead s.pc) = .ok i) : step s = exec i (fetch s) := by
  have hi' : decodeWord (fetch s).ir = .ok i := hi
  simp only [step_of_ready hr hp, instructionStep, dispatch, hi']

/-- Settles O48: the store leaves PC and the run state alone, so the next step fetches the cell it wrote. -/
theorem storeIntoTheNextCellIsFetchedNext : Obligations.StoreIntoTheNextCellIsFetchedNext := by
  intro s t store i sr hr hp hstore haddr hsr hi h
  have ht : t = (fetch s).memWrite (s.pc + 1) (s.reg sr) := by
    rw [step_eq_exec hr hp hstore, exec_of_store haddr hsr] at h
    exact (Host.Outcome.next.inj h).symm
  have hword : t.memRead t.pc = s.reg sr := by
    rw [ht, memRead_memWrite]
    exact if_pos rfl
  have hpc : t.pc + 1 = s.pc + 2 := by
    rw [ht]
    exact BitVec.add_assoc s.pc 1 1
  obtain ⟨htr, htp⟩ : t.runState = .running ∧ t.phase = .ready := by
    rw [ht]
    exact ⟨hr, hp⟩
  rw [step_eq_exec htr htp (hword ▸ hi), fetch, hword, hpc]

end Sys2Proof.Machine

/-! # Encoding (spec 30_encoding.md): opcodes, fields, and decode against encode -/

namespace Sys2Proof

open Machine (trapVector)

/-! ## The opcode table (R49) -/

/-- The handler table answers an opcode at its own value only. -/
theorem opcodeOf_of_handlerOf {op : BitVec 4} {o : Opcode} (h : handlerOf op = some o) : opcodeOf o = op := by
  have hinv : ∀ n : Fin 16, (handlerOf (BitVec.ofFin n)).map opcodeOf = some (BitVec.ofFin n) := by decide
  exact Option.some.inj (by simpa [h] using hinv op.toFin)

/-- Settles O5: the two tables are inverse to each other. -/
theorem opcodeValuesAreTheTableOfR49 : Obligations.OpcodeValuesAreTheTableOfR49 := by
  refine ⟨rfl, rfl, rfl, rfl, rfl, rfl, rfl, rfl, rfl, rfl, rfl, rfl, rfl, rfl, rfl, rfl,
    handlerOf_opcodeOf, fun v => ?_⟩
  obtain ⟨o, h⟩ := handlerOf_total v
  exact ⟨o, opcodeOf_of_handlerOf h⟩

/-! ## The trap vectors (R55, R93) -/

theorem decodeTrap_eq_ite (v : BitVec 8) :
    decodeTrap v = if v = 0x20 then .getc else if v = 0x21 then .out else if v = 0x22 then .puts
      else if v = 0x23 then .inp else if v = 0x24 then .putsp else if v = 0x25 then .halt else .trap v := by
  simp only [← BitVec.toNat_inj]
  unfold decodeTrap
  split
  case h_7 h20 h21 h22 h23 h24 h25 =>
    exact ((if_neg h20).trans <| (if_neg h21).trans <| (if_neg h22).trans <| (if_neg h23).trans <|
      (if_neg h24).trans <| if_neg h25).symm
  all_goals simp [*]

theorem decodeTrap_of_not_service {v : BitVec 8} (h : isServiceVector v = false) : decodeTrap v = .trap v := by
  have hne (w : BitVec 8) (hw : isServiceVector w = true) : v ≠ w := fun e => by simp [← e, h] at hw
  rw [decodeTrap_eq_ite, if_neg (hne _ rfl), if_neg (hne _ rfl), if_neg (hne _ rfl), if_neg (hne _ rfl),
    if_neg (hne _ rfl), if_neg (hne _ rfl)]

/-- A vector decodes to a well-formed instruction that dispatches on it. -/
theorem decodeTrap_spec (v : BitVec 8) :
    trapVector (decodeTrap v) = some v ∧ (decodeTrap v).wellFormed = true := by
  by_cases h : isServiceVector v = false
  · simp [decodeTrap_of_not_service h, trapVector, Instr.wellFormed, h]
  · obtain ⟨hl, hu⟩ : 0x20 ≤ v.toNat ∧ v.toNat ≤ 0x25 := by simpa [isServiceVector] using h
    rw [decodeTrap_eq_ite]
    split_ifs
    case neg => bv_omega
    all_goals subst v; exact ⟨rfl, rfl⟩

/-- A well-formed instruction that dispatches on a vector is the one the vector decodes to. -/
theorem decodeTrap_of_trapVector {i : Instr} {v : BitVec 8} (hv : trapVector i = some v)
    (hw : i.wellFormed = true) : decodeTrap v = i := by
  cases i <;> cases hv
  case trap => exact decodeTrap_of_not_service (by simpa [Instr.wellFormed] using hw)
  all_goals rfl

/-- The trap instructions share the format TV, whose bits 11 to 8 are unread (R52, R56). -/
theorem trapVector_format {i : Instr} {v : BitVec 8} (h : trapVector i = some v) (opc : Opcode → BitVec 4) :
    encodeWith opc i = formatTV (opc .trap) v ∧ unreadBits i = 0x0F00 := by
  cases i <;> cases h <;> exact ⟨rfl, rfl⟩

/-! ## Decoding an encoding -/

theorem opField_encodeWith (opc : Opcode → BitVec 4) (i : Instr) : opField (encodeWith opc i) = opc i.opcode := by
  cases i
  case addReg | andReg => exact (formatOPR_fields ..).1
  case addImm | andImm => exact (formatOPI_fields ..).1
  case not => exact (formatUN_fields ..).1
  case ld | ldi | lea | st | sti | br => exact (formatPC9_fields ..).1
  case ldr | str => exact (formatB6_fields ..).1
  case jmp | jsrr => exact (formatJR_fields ..).1
  case jsr => exact (formatJ11_fields ..).1
  case rti | res => exact formatNONE_fields _
  all_goals exact (formatTV_fields ..).1

/-- The handler of an instruction's opcode cuts from its word the operands that were put there. -/
theorem decodeAs_encodeWith (opc : Opcode → BitVec 4) {i : Instr} (hw : i.wellFormed = true) :
    decodeAs i.opcode (encodeWith opc i) = i := by
  cases i
  case addReg | andReg => simp [decodeAs, encodeWith, Instr.opcode, formatOPR_fields]
  case addImm | andImm => simp [decodeAs, encodeWith, Instr.opcode, formatOPI_fields]
  case not => simp [decodeAs, encodeWith, Instr.opcode, formatUN_fields]
  case ld | ldi | lea | st | sti | br => simp [decodeAs, encodeWith, Instr.opcode, formatPC9_fields]
  case ldr | str => simp [decodeAs, encodeWith, Instr.opcode, formatB6_fields]
  case jmp | jsrr => simp [decodeAs, encodeWith, Instr.opcode, formatJR_fields]
  case jsr => simp [decodeAs, encodeWith, Instr.opcode, formatJ11_fields]
  case rti | res => rfl
  all_goals
    rw [encodeWith, Instr.opcode, decodeAs, (formatTV_fields ..).2]
    exact decodeTrap_of_trapVector rfl hw

theorem decodeWith_encodeWith {opc : Opcode → BitVec 4} {handler : BitVec 4 → Option Opcode}
    (hinv : ∀ o, handler (opc o) = some o) {i : Instr} (hw : i.wellFormed = true) :
    decodeWith handler (encodeWith opc i) = .ok i := by
  have hop : handler (opField (encodeWith opc i)) = some i.opcode := by rw [opField_encodeWith, hinv]
  rw [decodeWith_of_handler handler _ _ hop, decodeAs_encodeWith opc hw]

/-- Settles O1: R49's table is one of the assignments that a handler table inverts. -/
theorem decodeOfEncodeIsTheInstruction : Obligations.DecodeOfEncodeIsTheInstruction :=
  ⟨fun _ _ hinv _ hw => decodeWith_encodeWith hinv hw, fun _ hw => decodeWith_encodeWith handlerOf_opcodeOf hw⟩

/-! ## Where a handler cuts its fields (R50 to R55) -/

/-- Settles O4: the model's fields are these cuts by definition, and only the trap vector is looked up. -/
theorem handlersCutTheirFieldsAtFixedBits : Obligations.HandlersCutTheirFieldsAtFixedBits := by
  intro handler ir o h
  refine (decodeWith_of_handler handler ir o h).trans (congrArg Except.ok ?_)
  cases o
  case trap => exact decodeTrap_eq_ite (trapVectorField ir)
  all_goals rfl

/-! ## Encoding a decoded word (R52, R56) -/

/-- A field put back where it was cut is the word at the field's bits. -/
theorem place_field (w : Word) (lo n : Nat) :
    place lo (w.extractLsb' lo n) = w &&& place lo (BitVec.allOnes n) := by
  apply BitVec.eq_of_getLsbD_eq
  intro i hi
  rw [BitVec.getLsbD_and, getLsbD_place, getLsbD_place, BitVec.getLsbD_extractLsb', BitVec.getLsbD_allOnes]
  by_cases hlo : lo ≤ i
  · simp [hi, hlo, Bool.and_comm]
  · simp [hlo]

/-- The mode bit at `k` (R53), put back, is the word at that bit. -/
theorem place_modeBit {w : Word} {k : Nat} {b : Bool} (h : w.getLsbD k = b) :
    place k (BitVec.ofBool b) = w &&& place k (1 : BitVec 1) := by
  have hcut : w.extractLsb' k 1 = BitVec.ofBool b := by
    ext i hi
    obtain rfl : i = 0 := by omega
    simp [h]
  rw [← hcut]
  exact place_field w k 1

/-! A word put together from its own fields has its unread bits cleared, once for each format of R52. -/

theorem formatOPR_of_fields {w : Word} (hm : immFlag w = false) :
    formatOPR (opField w) (regOfBits (field11_9 w)) (regOfBits (field8_6 w)) (regOfBits (field2_0 w)) =
      w &&& ~~~ 0x0018 := by
  have hbit : w &&& place 5 (1 : BitVec 1) = 0#16 := (place_modeBit hm).symm.trans (by decide)
  rw [← BitVec.or_zero (x := formatOPR ..), ← hbit]
  simp only [formatOPR, opField, field11_9, field8_6, field2_0, bitsOfReg_regOfBits, place_field,
    ← BitVec.and_or_distrib_left]
  rfl

theorem formatOPI_of_fields {w : Word} (hm : immFlag w = true) :
    formatOPI (opField w) (regOfBits (field11_9 w)) (regOfBits (field8_6 w)) (imm5Field w) = w &&& ~~~ 0x0000 := by
  have hbit : place 5 (1 : BitVec 1) = w &&& place 5 (1 : BitVec 1) := place_modeBit hm
  rw [formatOPI, hbit]
  simp only [opField, field11_9, field8_6, imm5Field, bitsOfReg_regOfBits, place_field,
    ← BitVec.and_or_distrib_left]
  rfl

theorem formatUN_of_fields (w : Word) :
    formatUN (opField w) (regOfBits (field11_9 w)) (regOfBits (field8_6 w)) = w &&& ~~~ 0x003F := by
  simp only [formatUN, opField, field11_9, field8_6, bitsOfReg_regOfBits, place_field,
    ← BitVec.and_or_distrib_left]
  rfl

theorem formatPC9_of_fields (w : Word) :
    formatPC9 (opField w) (field11_9 w) (pcOffset9Field w) = w &&& ~~~ 0x0000 := by
  simp only [formatPC9, opField, field11_9, pcOffset9Field, place_field, ← BitVec.and_or_distrib_left]
  rfl

theorem formatB6_of_fields (w : Word) :
    formatB6 (opField w) (regOfBits (field11_9 w)) (regOfBits (field8_6 w)) (offset6Field w) =
      w &&& ~~~ 0x0000 := by
  simp only [formatB6, opField, field11_9, field8_6, offset6Field, bitsOfReg_regOfBits, place_field,
    ← BitVec.and_or_distrib_left]
  rfl

/-- JMP does not read bits 11 to 9 either. -/
theorem formatJR_of_fields (w : Word) :
    formatJR (opField w) (regOfBits (field8_6 w)) = w &&& ~~~ 0x0E3F := by
  simp only [formatJR, opField, field8_6, bitsOfReg_regOfBits, place_field, ← BitVec.and_or_distrib_left]
  rfl

/-- JRR is JR with bit 11 read, as its mode bit. -/
theorem formatJR_of_fields_jsrr {w : Word} (hm : jsrFlag w = false) :
    formatJR (opField w) (regOfBits (field8_6 w)) = w &&& ~~~ 0x063F := by
  have hbit : w &&& place 11 (1 : BitVec 1) = 0#16 := (place_modeBit hm).symm.trans (by decide)
  rw [formatJR_of_fields, ← BitVec.or_zero (x := w &&& ~~~ 0x0E3F), ← hbit, ← BitVec.and_or_distrib_left]
  rfl

theorem formatJ11_of_fields {w : Word} (hm : jsrFlag w = true) :
    formatJ11 (opField w) (pcOffset11Field w) = w &&& ~~~ 0x0000 := by
  have hbit : place 11 (1 : BitVec 1) = w &&& place 11 (1 : BitVec 1) := place_modeBit hm
  rw [formatJ11, hbit]
  simp only [opField, pcOffset11Field, place_field, ← BitVec.and_or_distrib_left]
  rfl

theorem formatTV_of_fields (w : Word) : formatTV (opField w) (trapVectorField w) = w &&& ~~~ 0x0F00 := by
  simp only [formatTV, opField, trapVectorField, place_field, ← BitVec.and_or_distrib_left]
  rfl

theorem formatNONE_of_fields (w : Word) : formatNONE (opField w) = w &&& ~~~ 0x0FFF := by
  rw [formatNONE, opField, place_field]
  rfl

/-- Decoding a word at its own opcode and encoding the result clears the unread bits and no other (R52, R56). -/
theorem encodeWith_decodeAs {opc : Opcode → BitVec 4} {o : Opcode} {w : Word} (hop : opField w = opc o) :
    encodeWith opc (decodeAs o w) = w &&& ~~~ unreadBits (decodeAs o w) := by
  cases o
  case add | and =>
    cases hm : immFlag w
    · simpa [decodeAs, hm, encodeWith, unreadBits, ← hop] using formatOPR_of_fields hm
    · simpa [decodeAs, hm, encodeWith, unreadBits, ← hop] using formatOPI_of_fields hm
  case jsr =>
    cases hm : jsrFlag w
    · simpa [decodeAs, hm, encodeWith, unreadBits, ← hop] using formatJR_of_fields_jsrr hm
    · simpa [decodeAs, hm, encodeWith, unreadBits, ← hop] using formatJ11_of_fields hm
  case trap =>
    obtain ⟨henc, hunread⟩ := trapVector_format (decodeTrap_spec (trapVectorField w)).1 opc
    rw [decodeAs, henc, hunread, ← hop, formatTV_of_fields]
  all_goals rw [decodeAs, encodeWith, ← hop]
  case not => exact formatUN_of_fields w
  case ld | ldi | lea | st | sti | br => exact formatPC9_of_fields w
  case ldr | str => exact formatB6_of_fields w
  case jmp => exact formatJR_of_fields w
  case rti | res => exact formatNONE_of_fields w

theorem decodeAs_wellFormed (o : Opcode) (w : Word) : (decodeAs o w).wellFormed = true := by
  cases o
  case trap => exact (decodeTrap_spec (trapVectorField w)).2
  case add | and | jsr => rw [decodeAs]; split <;> rfl
  all_goals rfl

/-- Settles O2: the handler table is total, and its opcode value is the word's own. -/
theorem everyWordDecodesAndReencodes : Obligations.EveryWordDecodesAndReencodes := by
  intro w
  obtain ⟨o, ho, hdec⟩ := decodeWord_total w
  exact ⟨decodeAs o w, hdec, decodeAs_wellFormed o w, encodeWith_decodeAs (opcodeOf_of_handlerOf ho).symm⟩

/-! ## Unread bits (R56) -/

section

variable {w w' u : Word}

theorem bit_eq_of_agree (h : w' &&& ~~~ u = w &&& ~~~ u) {k : Nat} (hu : u.getLsbD k = false) :
    w'.getLsbD k = w.getLsbD k := by
  by_cases hk : k < 16
  · have hbit := congrArg (BitVec.getLsbD · k) h
    simpa only [BitVec.getLsbD_and, BitVec.getLsbD_not, hu, hk, decide_true, Bool.not_false, Bool.and_true] using hbit
  · rw [BitVec.getLsbD_of_ge w' k (by omega), BitVec.getLsbD_of_ge w k (by omega)]

/-- Words that agree outside the bits `u` agree in every field that keeps clear of `u`. -/
theorem field_eq_of_agree (h : w' &&& ~~~ u = w &&& ~~~ u) {lo n : Nat} (hu : u.extractLsb' lo n = 0) :
    w'.extractLsb' lo n = w.extractLsb' lo n := by
  ext i hi
  have hbit : u.getLsbD (lo + i) = false := by simpa [hi] using congrArg (BitVec.getLsbD · i) hu
  rw [BitVec.getElem_extractLsb', BitVec.getElem_extractLsb', bit_eq_of_agree h hbit]

theorem eq_of_agree_of_allRead (h : w' &&& ~~~ 0#16 = w &&& ~~~ 0#16) : w' = w := by
  simpa only [BitVec.not_zero, BitVec.and_allOnes] using h

theorem opField_unreadBits (i : Instr) : opField (unreadBits i) = 0 := by
  cases i <;> simp only [unreadBits] <;> decide

/-- A handler does not see the bits that are unread in what it decodes. -/
theorem decodeAs_eq_of_agree {o : Opcode}
    (h : w' &&& ~~~ unreadBits (decodeAs o w) = w &&& ~~~ unreadBits (decodeAs o w)) :
    decodeAs o w' = decodeAs o w := by
  cases o
  case ld | ldi | ldr | lea | st | sti | str | br => rw [eq_of_agree_of_allRead h]
  case rti | res => rfl
  case add | and =>
    cases hm : immFlag w <;> simp only [decodeAs, hm, Bool.false_eq_true, if_true, if_false, unreadBits] at h ⊢
    · have hm' : immFlag w' = false := (bit_eq_of_agree h (by decide)).trans hm
      have hd : field11_9 w' = field11_9 w := field_eq_of_agree h (by decide)
      have hs : field8_6 w' = field8_6 w := field_eq_of_agree h (by decide)
      have ht : field2_0 w' = field2_0 w := field_eq_of_agree h (by decide)
      simp [hm', hd, hs, ht]
    · simp [eq_of_agree_of_allRead h, hm]
  case not =>
    simp only [decodeAs, unreadBits] at h ⊢
    have hd : field11_9 w' = field11_9 w := field_eq_of_agree h (by decide)
    have hs : field8_6 w' = field8_6 w := field_eq_of_agree h (by decide)
    rw [hd, hs]
  case jmp =>
    simp only [decodeAs, unreadBits] at h ⊢
    have hb : field8_6 w' = field8_6 w := field_eq_of_agree h (by decide)
    rw [hb]
  case jsr =>
    cases hm : jsrFlag w <;> simp only [decodeAs, hm, Bool.false_eq_true, if_true, if_false, unreadBits] at h ⊢
    · have hm' : jsrFlag w' = false := (bit_eq_of_agree h (by decide)).trans hm
      have hb : field8_6 w' = field8_6 w := field_eq_of_agree h (by decide)
      simp [hm', hb]
    · simp [eq_of_agree_of_allRead h, hm]
  case trap =>
    rw [decodeAs, (trapVector_format (decodeTrap_spec _).1 opcodeOf).2] at h
    have hv : trapVectorField w' = trapVectorField w := field_eq_of_agree h (by decide)
    rw [decodeAs, decodeAs, hv]

/-- Settles O3: the opcode is never unread, so the same handler decodes both words. -/
theorem unreadBitsDoNotChangeTheInstruction : Obligations.UnreadBitsDoNotChangeTheInstruction := by
  intro w w' i hw h
  obtain ⟨o, ho, hdec⟩ := decodeWord_total w
  obtain rfl : decodeAs o w = i := Except.ok.inj (hdec.symm.trans hw)
  have hop : opField w' = opField w := field_eq_of_agree h (opField_unreadBits _)
  rw [decodeWord, decodeWith_of_handler handlerOf w' o (hop ▸ ho), decodeAs_eq_of_agree h]

end

end Sys2Proof

/-! # The letters of BR (spec 43_control.md R87) -/

namespace Sys2Proof.Machine

/-- A condition with the single flag `k` set tests bit `k` of the mask. -/
theorem condTaken_twoPow (mask : BitVec 3) {k : Nat} (hk : k < 3) :
    condTaken mask (BitVec.twoPow 3 k) = mask.getLsbD k := by
  have hne : BitVec.twoPow 3 k ≠ 0#3 := fun e => by simpa [hk] using congrArg (·.getLsbD k) e
  rw [condTaken, BitVec.and_twoPow]
  cases mask.getLsbD k <;> simp [hne]

/-- Settles O26: NEG, ZRO and POS are the single flags at bits 2, 1 and 0. -/
theorem branchLettersTestTheirFlags : Obligations.BranchLettersTestTheirFlags :=
  fun mask => ⟨condTaken_twoPow mask (k := 2) (by decide), condTaken_twoPow mask (k := 1) (by decide),
    condTaken_twoPow mask (k := 0) (by decide), by simp [condTaken, condNONE]⟩

end Sys2Proof.Machine

/-! # The dispatcher (spec 40_dispatch.md): RUNSTATE, start, Halted, the step, and the input hold -/

namespace Sys2Proof.Machine

/-! ## RUNSTATE and FATAL after an instruction (R57, R63, R112) -/

theorem eq_trap_of_unknownVector {i : Instr} {v : BitVec 8} (h : trapVector i = some v)
    (hv : isServiceVector v = false) : i = .trap v := by
  cases i <;> cases h
  case trap => rfl
  all_goals cases hv

theorem eq_halt_or_trap_of_haltVector {i : Instr} (h : trapVector i = some 0x25) : i = .halt ∨ i = .trap 0x25 := by
  cases i
  case halt => exact .inl rfl
  case trap v => exact .inr (congrArg Instr.trap (Option.some.inj h))
  all_goals cases h

/-- What the trap dispatch does to RUNSTATE and FATAL: five services leave both, HALT's halts, and an unknown vector is
fatal (R63, R105). -/
theorem dispatchTrap_status_cases (v : BitVec 8) (s : State) :
    ((dispatchTrap v s).runState = s.runState ∧ (dispatchTrap v s).fatal = s.fatal) ∨
    (v = 0x25 ∧ (dispatchTrap v s).runState = .halted ∧ (dispatchTrap v s).fatal = s.fatal) ∨
    (isServiceVector v = false ∧ (dispatchTrap v s).runState = .halted) := by
  obtain ⟨-, e⟩ | ⟨-, e⟩ | ⟨-, e⟩ | ⟨-, e⟩ | ⟨-, e⟩ | ⟨hv, e⟩ | ⟨hv, e⟩ := dispatchTrap_cases v s <;> rw [e]
  · exact .inl (by simp)
  · exact .inl ⟨rfl, rfl⟩
  · exact .inl (by simp [servicePuts])
  · exact .inl (by simp)
  · exact .inl (by simp [servicePutsp])
  · exact .inr (.inl ⟨hv, rfl, rfl⟩)
  · exact .inr (.inr ⟨hv, rfl⟩)

/-- What an instruction does to RUNSTATE and FATAL: it leaves both, or it is HALT, or a fatal error (R63, R112). -/
theorem exec_status_cases {i : Instr} {s t : State} (h : exec i s = .next t) :
    (t.runState = s.runState ∧ t.fatal = s.fatal) ∨
    ((i = .halt ∨ i = .trap 0x25) ∧ t.runState = .halted ∧ t.fatal = s.fatal) ∨
    ((i = .rti ∨ i = .res ∨ ∃ v, i = .trap v ∧ isServiceVector v = false) ∧ t.runState = .halted) := by
  obtain ⟨d, v, -, -, -, -, rfl⟩ | ⟨a, v, -, -, -, rfl⟩ | ⟨v, -, -, -, rfl⟩ | ⟨v, -, -, -, -, rfl⟩ |
    ⟨v, hv, -, -, rfl⟩ | ⟨hi, rfl⟩ := exec_cases h
  · exact .inl ⟨rfl, rfl⟩
  · exact .inl ⟨rfl, rfl⟩
  · exact .inl ⟨rfl, rfl⟩
  · exact .inl ⟨rfl, rfl⟩
  · obtain hkept | ⟨rfl, hhalt⟩ | ⟨hunknown, hhalt⟩ := dispatchTrap_status_cases v s
    · exact .inl hkept
    · exact .inr (.inl ⟨eq_halt_or_trap_of_haltVector hv, hhalt⟩)
    · exact .inr (.inr ⟨.inr (.inr ⟨v, eq_trap_of_unknownVector hv hunknown, hunknown⟩), hhalt⟩)
  · exact .inr (.inr ⟨hi.imp_right .inl, rfl⟩)

/-- Settles O18: an instruction that leaves neither RUNSTATE nor FATAL alone is HALT, which keeps FATAL, or a fatal error. -/
theorem onlyHaltAndFatalErrorsHalt : Obligations.OnlyHaltAndFatalErrorsHalt := by
  intro i s t h
  obtain ⟨hr, hf⟩ | ⟨hi, -, hf⟩ | ⟨hi, -⟩ := exec_status_cases h
  · exact ⟨fun hne => absurd hr hne, fun hne => absurd hf hne⟩
  · exact ⟨fun _ => hi.imp_right .inl, fun hne => absurd hf hne⟩
  · exact ⟨fun _ => .inr (.inr hi), fun _ => hi⟩

/-! ## The run states (R61, R62, R69) -/

theorem start_of_preRun {s : State} (h : s.runState = .preRun) :
    start s = { s with runState := .running, pc := Config.origin } := by
  obtain ⟨-, e⟩ | ⟨hne, -⟩ := start_cases s
  · exact e
  · exact absurd h hne

theorem start_of_ne_preRun {s : State} (h : s.runState ≠ .preRun) : start s = s := by
  obtain ⟨hpre, -⟩ | ⟨-, e⟩ := start_cases s
  · exact absurd hpre h
  · exact e

/-- Settles O14: the fields of `start` in PreRun. -/
theorem startRunsFromTheOrigin : Obligations.StartRunsFromTheOrigin := by
  intro s h
  rw [start_of_preRun h]
  exact ⟨rfl, rfl, fun _ => rfl, rfl, fun _ => rfl, ⟨rfl, rfl⟩, rfl, rfl, rfl⟩

theorem step_runState_of_running {s t : State} (hr : s.runState = .running) (h : step s = .next t) :
    t.runState = .running ∨ t.runState = .halted := by
  obtain ⟨hpre, -⟩ | ⟨-, rfl⟩ | ⟨-, -, i, -, hi⟩ | ⟨-, -, rfl⟩ | ⟨-, -, rfl⟩ | ⟨-, -, rfl⟩ := step_cases h
  · simp [hr] at hpre
  · exact .inl hr
  · obtain ⟨hkept, -⟩ | ⟨-, hhalt, -⟩ | ⟨-, hhalt⟩ := exec_status_cases hi
    · exact .inl (hkept.trans hr)
    · exact .inr hhalt
    · exact .inr hhalt
  · exact .inl (by simp [hr])
  · exact .inl (by simp [servicePuts, hr])
  · exact .inl (by simp [servicePutsp, hr])

/-- Settles O15, one run state at a time. -/
theorem runStateMovesOnlyAlongR61 : Obligations.RunStateMovesOnlyAlongR61 := by
  refine ⟨fun s t h => ⟨fun hpre => ?_, fun hr => step_runState_of_running hr h, fun hhalted => ?_⟩,
    fun s => start_of_ne_preRun⟩
  · rw [step_of_preRun hpre] at h
    cases h
    exact ⟨(start_of_preRun hpre).symm, rfl⟩
  · rw [step_of_halted hhalted] at h
    cases h
    rfl

/-- A state that steps to itself is where every run from it ends. -/
theorem run_of_step_self {M : Host.Core} {s : M.State} (h : M.step s = .next s) (k : Nat) : M.run k s = .next s := by
  induction k with
  | zero => rfl
  | succ k ih => rw [Host.Core.run, h]; exact ih

/-- Settles O16: a Halted state steps to itself. -/
theorem haltedBlockChangesNothingEver : Obligations.HaltedBlockChangesNothingEver :=
  fun _ k h => run_of_step_self (M := Sys2Proof.core) (step_of_halted h) k

/-! ## The step (R64) -/

/-- Settles O17: the state the handler runs in is the fetched one. -/
theorem stepRunsTheDecodedInstruction : Obligations.StepRunsTheDecodedInstruction :=
  fun _ _ hr hp hi => step_eq_exec hr hp hi

/-! ## The input hold (R70) -/

theorem onlyOutput_self (s : State) : OnlyOutput s s [] :=
  ⟨by simp, fun _ => rfl, rfl, rfl, fun _ => rfl, rfl, rfl, rfl, rfl⟩

/-- IN's prompt and its flush (R102). -/
theorem onlyOutput_prompt (s : State) :
    OnlyOutput s (conFlush (conOutAll inPrompt s)) [.out 0x3E, .out 0x20, .flush] :=
  ⟨by simp [inPrompt], fun _ => rfl, rfl, rfl, fun _ => rfl, rfl, rfl, rfl, rfl⟩

/-- The input part of GETC and IN, with no character to be had, ends in the hold and adds nothing to what was written
before it (R70). -/
theorem inputToR0_holds {s t : State} {evs : List ConEvent} (h : t.consoleIn = []) (ht : OnlyOutput s t evs) :
    (inputToR0 t).phase = .inputHold ∧ OnlyOutput s (inputToR0 t) evs := by
  rw [inputToR0_of_empty t h]
  exact ⟨rfl, ht⟩

/-- Settles O34: GETC comes to the input with nothing written, IN with its prompt written and flushed. -/
theorem inputServicesHoldWithoutACharacter : Obligations.InputServicesHoldWithoutACharacter :=
  fun s h => ⟨⟨_, rfl, inputToR0_holds h (onlyOutput_self s)⟩,
    ⟨_, rfl, inputToR0_holds (t := conFlush (conOutAll inPrompt s)) h (onlyOutput_prompt s)⟩⟩

theorem step_of_inputHold {s : State} (hr : s.runState = .running) (hp : s.phase = .inputHold) :
    step s = .next (inputToR0 s) := by
  simp [step, runningStep, hr, hp]

/-- The hold of a held block with no character to be had is the block itself. -/
theorem inputToR0_of_held {s : State} (hp : s.phase = .inputHold) (h : s.consoleIn = []) : inputToR0 s = s := by
  rw [inputToR0_of_empty s h, ← hp]

theorem reg_inputToR0_of_char {s : State} {c : Byte} {rest : List Byte} (h : s.consoleIn = c :: rest) (r : Reg) :
    (inputToR0 s).reg r = if r = 0 then zext16 c else s.reg r := by
  rw [inputToR0_of_char s c rest h]
  exact reg_setReg { s with consoleIn := rest } 0 r (zext16 c)

/-- Reading a character moves R0, CONSOLE_IN and the phase, and nothing else (R95, R99). -/
theorem inputToR0_frame_of_char {s : State} {c : Byte} {rest : List Byte} (h : s.consoleIn = c :: rest) :
    (inputToR0 s).consoleIn = rest ∧ (inputToR0 s).consoleOut = s.consoleOut ∧ (inputToR0 s).phase = .ready ∧
      (inputToR0 s).cond = s.cond ∧ (inputToR0 s).pc = s.pc ∧ SameMemory s (inputToR0 s) ∧
      (inputToR0 s).runState = s.runState ∧ (inputToR0 s).fatal = s.fatal ∧ (inputToR0 s).ir = s.ir := by
  rw [inputToR0_of_char s c rest h]
  exact ⟨rfl, rfl, rfl, rfl, rfl, fun _ => rfl, rfl, rfl, rfl⟩

/-- Settles O35: the step of a held block is the input part again. -/
theorem onlyACharacterEndsTheInputHold : Obligations.OnlyACharacterEndsTheInputHold := by
  intro s hr hp
  rw [step_of_inputHold hr hp]
  refine ⟨fun h => by rw [inputToR0_of_held hp h], fun c rest h => ⟨_, rfl, reg_inputToR0_of_char h, ?_⟩⟩
  simpa only [hr] using inputToR0_frame_of_char h

end Sys2Proof.Machine

/-! # The operate instructions (spec 41_operate.md): ADD, AND, NOT, and the words the spec writes out -/

/-! ## Decoding a given word (R49, R52, R56) -/

namespace Sys2Proof

/-- A word is the instruction whose format of R52 it matches in every bit that is read, and no other. -/
theorem decodeWord_eq_ok_iff {w : Word} {i : Instr} :
    decodeWord w = .ok i ↔ i.wellFormed = true ∧ w &&& ~~~ unreadBits i = encode i := by
  constructor
  · intro h
    obtain ⟨j, hj, hwf, henc⟩ := everyWordDecodesAndReencodes w
    obtain rfl : j = i := Except.ok.inj (hj.symm.trans h)
    exact ⟨hwf, henc.symm⟩
  · rintro ⟨hwf, hw⟩
    refine unreadBitsDoNotChangeTheInstruction (encode i) w i (decodeOfEncodeIsTheInstruction.2 i hwf) ?_
    rw [← hw, BitVec.and_assoc, BitVec.and_self]

/-- Settles O6: each word is compared with the format of its instruction, in the bits that are read. -/
theorem wordsWrittenInTheSpecDecode : Obligations.WordsWrittenInTheSpecDecode := by
  unfold Obligations.WordsWrittenInTheSpecDecode
  simp only [decodeWord_eq_ok_iff]
  decide

end Sys2Proof

/-! ## Results and their flags (R20, R22, R73 to R78) -/

namespace Sys2Proof.Machine

theorem onlyResult_writeResult (s : State) (dr : Reg) (v : Word) : OnlyResult s (writeResult dr v s) dr v :=
  ⟨fun r => reg_writeResult s dr r v, rfl, rfl, fun _ => rfl, ⟨rfl, rfl⟩, ⟨rfl, rfl, rfl, rfl⟩⟩

/-- An instruction that ends in `writeResult` has its result and its flags as its only effect. -/
theorem onlyResult_of_exec {i : Instr} {s : State} {dr : Reg} {v : Word}
    (h : exec i s = .next (writeResult dr v s)) : ∃ t, exec i s = .next t ∧ OnlyResult s t dr v :=
  ⟨_, h, onlyResult_writeResult s dr v⟩

theorem immOperand_eq_signExtend (imm : BitVec 5) : immOperand imm = imm.signExtend 16 :=
  sext_eq_signExtend imm (by decide)

theorem exec_addReg (dr sr1 sr2 : Reg) (s : State) :
    exec (.addReg dr sr1 sr2) s = .next (writeResult dr (s.reg sr1 + s.reg sr2) s) := rfl

theorem exec_addImm (dr sr1 : Reg) (imm : BitVec 5) (s : State) :
    exec (.addImm dr sr1 imm) s = .next (writeResult dr (s.reg sr1 + imm.signExtend 16) s) := by
  rw [← immOperand_eq_signExtend]; rfl

theorem exec_andReg (dr sr1 sr2 : Reg) (s : State) :
    exec (.andReg dr sr1 sr2) s = .next (writeResult dr (s.reg sr1 &&& s.reg sr2) s) := rfl

theorem exec_andImm (dr sr1 : Reg) (imm : BitVec 5) (s : State) :
    exec (.andImm dr sr1 imm) s = .next (writeResult dr (s.reg sr1 &&& imm.signExtend 16) s) := by
  rw [← immOperand_eq_signExtend]; rfl

theorem exec_not (dr sr1 : Reg) (s : State) :
    exec (.not dr sr1) s = .next (writeResult dr (~~~ s.reg sr1) s) := rfl

/-- Settles O20: both forms end in `writeResult` of a sum over the registers as they were. -/
theorem addWritesTheSumAndItsFlags : Obligations.AddWritesTheSumAndItsFlags :=
  fun s dr sr1 sr2 imm => ⟨onlyResult_of_exec (exec_addReg dr sr1 sr2 s), onlyResult_of_exec (exec_addImm dr sr1 imm s)⟩

/-- Settles O21: AND and NOT end in `writeResult` of a value over the registers as they were. -/
theorem andAndNotWriteTheirResultAndItsFlags : Obligations.AndAndNotWriteTheirResultAndItsFlags :=
  fun s dr sr1 sr2 imm => ⟨onlyResult_of_exec (exec_andReg dr sr1 sr2 s),
    onlyResult_of_exec (exec_andImm dr sr1 imm s), onlyResult_of_exec (exec_not dr sr1 s)⟩

end Sys2Proof.Machine

/-! # Loads and stores (spec 42_loads_stores.md): the three addresses, the loads and LEA, the stores -/

namespace Sys2Proof.Machine

/-! ## The address generator (R79) -/

theorem eaPc9_eq_signExtend (off : BitVec 9) (s : State) : eaPc9 off s = s.pc + off.signExtend 16 := by
  rw [eaPc9, sext_eq_signExtend off (by decide)]

theorem eaBase6_eq_signExtend (base : Reg) (off : BitVec 6) (s : State) :
    eaBase6 base off s = s.reg base + off.signExtend 16 := by
  rw [eaBase6, sext_eq_signExtend off (by decide)]

theorem eaInd_eq_signExtend (off : BitVec 9) (s : State) :
    eaInd off s = s.memRead (s.pc + off.signExtend 16) := by
  rw [eaInd, eaPc9_eq_signExtend]

/-- Settles O11: the model's `sext` is two's-complement sign extension at both offset widths. -/
theorem addressGeneratorFormsThreeAddresses : Obligations.AddressGeneratorFormsThreeAddresses :=
  fun s off9 base off6 =>
    ⟨eaPc9_eq_signExtend off9 s, eaBase6_eq_signExtend base off6 s, eaInd_eq_signExtend off9 s⟩

/-! ## The loads and LEA (R80 to R83) -/

theorem exec_ld (dr : Reg) (off : BitVec 9) (s : State) :
    exec (.ld dr off) s = .next (writeResult dr (s.memRead (s.pc + off.signExtend 16)) s) := by
  rw [← eaPc9_eq_signExtend]; rfl

theorem exec_ldi (dr : Reg) (off : BitVec 9) (s : State) :
    exec (.ldi dr off) s = .next (writeResult dr (s.memRead (s.memRead (s.pc + off.signExtend 16))) s) := by
  rw [← eaInd_eq_signExtend]; rfl

theorem exec_ldr (dr base : Reg) (off : BitVec 6) (s : State) :
    exec (.ldr dr base off) s = .next (writeResult dr (s.memRead (s.reg base + off.signExtend 16)) s) := by
  rw [← eaBase6_eq_signExtend]; rfl

theorem exec_lea (dr : Reg) (off : BitVec 9) (s : State) :
    exec (.lea dr off) s = .next (writeResult dr (s.pc + off.signExtend 16) s) := by
  rw [← eaPc9_eq_signExtend]; rfl

/-- Settles O22: each load ends in `writeResult` of the word at its address, with the base as it was before DR is written. -/
theorem loadsWriteTheLoadedWordAndItsFlags : Obligations.LoadsWriteTheLoadedWordAndItsFlags :=
  fun s dr base off9 off6 => ⟨onlyResult_of_exec (exec_ld dr off9 s), onlyResult_of_exec (exec_ldi dr off9 s),
    onlyResult_of_exec (exec_ldr dr base off6 s)⟩

/-- Settles O23: LEA ends in `writeResult` of the address, and reads no memory. -/
theorem leaWritesTheAddressAndItsFlags : Obligations.LeaWritesTheAddressAndItsFlags :=
  fun s dr off9 => onlyResult_of_exec (exec_lea dr off9 s)

/-! ## The stores (R84 to R86) -/

theorem onlyStored_memWrite (s : State) (a v : Word) : OnlyStored s (s.memWrite a v) a v :=
  have ⟨hcell, hothers⟩ := memoryWriteReadsBackAndChangesNoOtherCell s a v
  ⟨hcell, hothers, reg_memWrite s a v, rfl, rfl, ⟨rfl, rfl⟩, ⟨rfl, rfl, rfl, rfl⟩⟩

/-- An instruction that stores has one written cell as its only effect. -/
theorem onlyStored_of_store {i : Instr} {s : State} {a : Word} {sr : Reg} (ha : storeAddress i s = some a)
    (hsr : storedReg i = some sr) : ∃ t, exec i s = .next t ∧ OnlyStored s t a (s.reg sr) :=
  ⟨_, exec_of_store ha hsr, onlyStored_memWrite s a (s.reg sr)⟩

/-- Settles O24: each store is one memory write, at an address formed in the state before that write. -/
theorem storesWriteOneCell : Obligations.StoresWriteOneCell :=
  fun _ _ _ _ _ => ⟨onlyStored_of_store rfl rfl, onlyStored_of_store rfl rfl, onlyStored_of_store rfl rfl⟩

end Sys2Proof.Machine

/-! # Control transfer (spec 43_control.md): BR, JMP, JSR and JSRR -/

namespace Sys2Proof.Machine

/-! ## BR and JMP (R88, R89): a write of PC alone -/

/-- An instruction that ends in `setPc` has its target as its only effect. -/
theorem onlyPc_of_exec {i : Instr} {s : State} {v : Word} (h : exec i s = .next (s.setPc v)) :
    ∃ t, exec i s = .next t ∧ t.pc = v ∧
      SameRegs s t ∧ t.cond = s.cond ∧ SameMemory s t ∧ SameConsole s t ∧ SameStatus s t :=
  ⟨_, h, rfl, fun r => reg_setPc s v r, rfl, fun a => memRead_setPc s v a, ⟨rfl, rfl⟩, ⟨rfl, rfl, rfl, rfl⟩⟩

theorem condTaken_iff (mask cond : BitVec 3) : condTaken mask cond = true ↔ mask &&& cond ≠ 0 := bne_iff_ne

/-- A branch that is not taken writes PC back to itself. -/
theorem exec_br (mask : BitVec 3) (off : BitVec 9) (s : State) :
    exec (.br mask off) s =
      .next (s.setPc (if mask &&& s.cond ≠ 0 then s.pc + off.signExtend 16 else s.pc)) := by
  have hstay : s.setPc s.pc = s := rfl
  rw [apply_ite s.setPc, hstay, ← eaPc9_eq_signExtend]
  simp only [exec, execBr, condTaken_iff]

theorem exec_jmp (base : Reg) (s : State) : exec (.jmp base) s = .next (s.setPc (s.reg base)) := rfl

/-- Settles O25: taken or not, BR is one write of PC. -/
theorem branchIsTakenWhenTheMaskSelectsASetFlag : Obligations.BranchIsTakenWhenTheMaskSelectsASetFlag :=
  fun s mask off9 => onlyPc_of_exec (exec_br mask off9 s)

/-- Settles O27: JMP is one write of PC. -/
theorem jumpGoesToTheBaseRegister : Obligations.JumpGoesToTheBaseRegister :=
  fun s base => onlyPc_of_exec (exec_jmp base s)

/-! ## JSR and JSRR (R90, R91): the link in R7, then PC -/

/-- An instruction that links in R7 and then writes PC has the link and its target as its only effects. -/
theorem onlyLinkAndPc_of_exec {i : Instr} {s : State} {v : Word}
    (h : exec i s = .next ((s.setReg 7 s.pc).setPc v)) :
    ∃ t, exec i s = .next t ∧ t.pc = v ∧ (∀ r : Reg, t.reg r = if r = 7 then s.pc else s.reg r) ∧
      t.cond = s.cond ∧ SameMemory s t ∧ SameConsole s t ∧ SameStatus s t :=
  ⟨_, h, rfl, fun r => reg_setReg s 7 r s.pc, rfl, fun a => memRead_setReg s 7 s.pc a, ⟨rfl, rfl⟩,
    ⟨rfl, rfl, rfl, rfl⟩⟩

theorem targetPc11_eq_signExtend (off : BitVec 11) (s : State) : targetPc11 off s = s.pc + off.signExtend 16 := by
  rw [targetPc11, sext_eq_signExtend off (by decide)]

theorem exec_jsr (off : BitVec 11) (s : State) :
    exec (.jsr off) s = .next ((s.setReg 7 s.pc).setPc (s.pc + off.signExtend 16)) := by
  rw [← targetPc11_eq_signExtend]; rfl

/-- The base is read after the link, so JSRR R7 continues at `pc` (U6). -/
theorem exec_jsrr (base : Reg) (s : State) :
    exec (.jsrr base) s = .next ((s.setReg 7 s.pc).setPc (if base = 7 then s.pc else s.reg base)) := by
  rw [← reg_setReg]; rfl

/-- Settles O28: both calls are the link in R7 and then a write of PC. -/
theorem subroutineCallsLinkInR7 : Obligations.SubroutineCallsLinkInR7 :=
  fun s off11 base => ⟨onlyLinkAndPc_of_exec (exec_jsr off11 s), onlyLinkAndPc_of_exec (exec_jsrr base s)⟩

end Sys2Proof.Machine

/-! # Traps and the console (spec 44_trap.md): the two streams, the services, and the dispatch on the vector -/

namespace Sys2Proof.Machine

/-! ## Output is flushed (R106) -/

/-- A trace that ends in a flush leaves nothing unflushed (R97). -/
theorem unflushedAfter_flush (pending : List Byte) (evs : List ConEvent) :
    unflushedAfter pending (evs ++ [.flush]) = [] := by
  rw [unflushedAfter_append]
  rfl

theorem outputFlushed_of_flush {t : State} {evs : List ConEvent} (h : t.consoleOut = evs ++ [.flush]) :
    t.OutputFlushed :=
  fun _ => h ▸ unflushedAfter_flush [] evs

/-- The input part of GETC and IN, in its hold too, writes nothing (R70). -/
theorem inputToR0_outputFlushed {s : State} (hs : unflushedAfter [] s.consoleOut = []) :
    (inputToR0 s).OutputFlushed := by
  obtain ⟨-, -, -, -, -, hout⟩ := inputToR0_frame s
  exact fun _ => hout ▸ hs

/-- A string service that completes has flushed; one that does not is inside its scan. -/
theorem serviceString_outputFlushed (stop : Word → Bool) (chars : Word → List Byte) {loop : Phase} (s : State)
    (hloop : ¬ (loop = .ready ∨ loop = .inputHold)) : (serviceString stop chars loop s).OutputFlushed := by
  obtain ⟨cs, e⟩ | ⟨cs, e⟩ := serviceString_cases stop chars loop s <;> rw [e]
  · exact outputFlushed_of_flush rfl
  · exact fun h => absurd h hloop

theorem servicePuts_outputFlushed (s : State) : (servicePuts s).OutputFlushed :=
  serviceString_outputFlushed _ _ s (by decide)

theorem servicePutsp_outputFlushed (s : State) : (servicePutsp s).OutputFlushed :=
  serviceString_outputFlushed _ _ s (by decide)

/-- The fatal entry adds its diagnostic and no character (R113). -/
theorem raiseFatal_outputFlushed {s : State} (hs : unflushedAfter [] s.consoleOut = []) (q : FatalReason) (w : Word) :
    (raiseFatal q w s).OutputFlushed := by
  intro _
  rw [raiseFatal_consoleOut, unflushedAfter_append, hs]
  rfl

theorem dispatchTrap_outputFlushed {s : State} (hs : unflushedAfter [] s.consoleOut = []) (v : BitVec 8) :
    (dispatchTrap v s).OutputFlushed := by
  obtain ⟨-, e⟩ | ⟨-, e⟩ | ⟨-, e⟩ | ⟨-, e⟩ | ⟨-, e⟩ | ⟨-, e⟩ | ⟨-, e⟩ := dispatchTrap_cases v s <;> rw [e]
  · exact inputToR0_outputFlushed hs
  · exact outputFlushed_of_flush (conFlush_consoleOut _)
  · exact servicePuts_outputFlushed s
  · exact inputToR0_outputFlushed (unflushedAfter_flush [] (conOutAll inPrompt s).consoleOut)
  · exact servicePutsp_outputFlushed s
  · exact outputFlushed_of_flush rfl
  · exact raiseFatal_outputFlushed hs _ _

/-- Every handler, run where nothing is unflushed, leaves the output flushed. -/
theorem exec_outputFlushed {i : Instr} {s t : State} (hs : unflushedAfter [] s.consoleOut = [])
    (h : exec i s = .next t) : t.OutputFlushed := by
  obtain ⟨d, v, -, -, -, -, rfl⟩ | ⟨a, v, -, -, -, rfl⟩ | ⟨v, -, -, -, rfl⟩ | ⟨v, -, -, -, -, rfl⟩ |
    ⟨v, -, -, -, rfl⟩ | ⟨-, rfl⟩ := exec_cases h
  · exact fun _ => hs
  · exact fun _ => hs
  · exact fun _ => hs
  · exact fun _ => hs
  · exact dispatchTrap_outputFlushed hs v
  · exact raiseFatal_outputFlushed hs _ _

/-- Settles O55: between steps and in the input hold nothing is unflushed, and a string scan ends only with a flush. -/
theorem everyStepLeavesTheOutputFlushed : Obligations.EveryStepLeavesTheOutputFlushed := by
  intro s t hs h
  obtain ⟨-, rfl⟩ | ⟨-, rfl⟩ | ⟨-, hp, i, -, he⟩ | ⟨-, hp, rfl⟩ | ⟨-, -, rfl⟩ | ⟨-, -, rfl⟩ := step_cases h
  · obtain ⟨-, e⟩ | ⟨-, e⟩ := start_cases s <;> rw [e] <;> exact hs
  · exact hs
  · exact exec_outputFlushed (s := fetch s) (hs (.inl hp)) he
  · exact inputToR0_outputFlushed (hs (.inr hp))
  · exact servicePuts_outputFlushed s
  · exact servicePutsp_outputFlushed s

/-! ## The streams move one way (R94, R95) -/

/-- From `s` to `t` the output trace grew at its end and input was consumed at its front. -/
def StreamsAdvance (s t : State) : Prop := s.consoleOut <+: t.consoleOut ∧ t.consoleIn <:+ s.consoleIn

theorem streamsAdvance_of_sameConsole {s t : State} (h : SameConsole s t) : StreamsAdvance s t := by
  obtain ⟨hin, hout⟩ := h
  exact ⟨hout ▸ List.prefix_rfl, hin ▸ List.suffix_rfl⟩

theorem streamsAdvance_of_output {s t : State} {evs : List ConEvent} (hout : t.consoleOut = s.consoleOut ++ evs)
    (hin : t.consoleIn = s.consoleIn) : StreamsAdvance s t :=
  ⟨⟨evs, hout.symm⟩, hin ▸ List.suffix_rfl⟩

theorem StreamsAdvance.trans {s t u : State} (hst : StreamsAdvance s t) (htu : StreamsAdvance t u) :
    StreamsAdvance s u :=
  ⟨hst.1.trans htu.1, htu.2.trans hst.2⟩

theorem streamsAdvance_inputToR0 (s : State) : StreamsAdvance s (inputToR0 s) := by
  obtain ⟨c, rest, hc, e⟩ | ⟨-, e⟩ := inputToR0_cases s <;> rw [e]
  · exact ⟨List.prefix_rfl, ⟨[c], hc.symm⟩⟩
  · exact streamsAdvance_of_sameConsole ⟨rfl, rfl⟩

theorem streamsAdvance_serviceString (stop : Word → Bool) (chars : Word → List Byte) (loop : Phase) (s : State) :
    StreamsAdvance s (serviceString stop chars loop s) := by
  obtain ⟨cs, e⟩ | ⟨cs, e⟩ := serviceString_cases stop chars loop s <;> rw [e]
  · exact streamsAdvance_of_output (List.append_assoc _ _ _) rfl
  · exact streamsAdvance_of_output rfl rfl

theorem streamsAdvance_dispatchTrap (v : BitVec 8) (s : State) : StreamsAdvance s (dispatchTrap v s) := by
  obtain ⟨-, e⟩ | ⟨-, e⟩ | ⟨-, e⟩ | ⟨-, e⟩ | ⟨-, e⟩ | ⟨-, e⟩ | ⟨-, e⟩ := dispatchTrap_cases v s <;> rw [e]
  · exact streamsAdvance_inputToR0 s
  · exact streamsAdvance_of_output (List.append_assoc _ _ _) rfl
  · exact streamsAdvance_serviceString _ _ _ s
  · have hprompt : StreamsAdvance s (conFlush (conOutAll inPrompt s)) :=
      streamsAdvance_of_output (List.append_assoc _ _ _) rfl
    exact hprompt.trans (streamsAdvance_inputToR0 _)
  · exact streamsAdvance_serviceString _ _ _ s
  · exact streamsAdvance_of_output (List.append_assoc _ _ _) rfl
  · exact streamsAdvance_of_output rfl rfl

theorem streamsAdvance_exec {i : Instr} {s t : State} (h : exec i s = .next t) : StreamsAdvance s t := by
  obtain ⟨d, v, -, -, -, -, rfl⟩ | ⟨a, v, -, -, -, rfl⟩ | ⟨v, -, -, -, rfl⟩ | ⟨v, -, -, -, -, rfl⟩ |
    ⟨v, -, -, -, rfl⟩ | ⟨-, rfl⟩ := exec_cases h
  · exact streamsAdvance_of_sameConsole ⟨rfl, rfl⟩
  · exact streamsAdvance_of_sameConsole ⟨rfl, rfl⟩
  · exact streamsAdvance_of_sameConsole ⟨rfl, rfl⟩
  · exact streamsAdvance_of_sameConsole ⟨rfl, rfl⟩
  · exact streamsAdvance_dispatchTrap v s
  · exact streamsAdvance_of_output rfl rfl

/-- Settles O50, along what a step can do; fetch and start leave the console alone. -/
theorem consoleStreamsMoveOneWay : Obligations.ConsoleStreamsMoveOneWay := by
  intro s t h
  obtain ⟨-, rfl⟩ | ⟨-, rfl⟩ | ⟨-, -, i, -, he⟩ | ⟨-, -, rfl⟩ | ⟨-, -, rfl⟩ | ⟨-, -, rfl⟩ := step_cases h
  · obtain ⟨-, e⟩ | ⟨-, e⟩ := start_cases s <;> rw [e] <;> exact streamsAdvance_of_sameConsole ⟨rfl, rfl⟩
  · exact streamsAdvance_of_sameConsole ⟨rfl, rfl⟩
  · exact streamsAdvance_exec (s := fetch s) he
  · exact streamsAdvance_inputToR0 s
  · exact streamsAdvance_serviceString _ _ _ s
  · exact streamsAdvance_serviceString _ _ _ s

/-! ## The string services (R101, R103) -/

/-- Cells 65,536 apart are one cell (R48), so the first cell of a kind lies less than one round away. -/
theorem lt_memSize_of_first {p : Word → Prop} {a : Word} {n : Nat}
    (hbefore : ∀ k, k < n → ¬ p (a + BitVec.ofNat 16 k)) (hn : p (a + BitVec.ofNat 16 n)) : n < Config.memSize := by
  by_contra hge
  have hlt : n % 65536 < n := by
    have hge' : ¬ n < 65536 := hge
    omega
  have hround : BitVec.ofNat 16 (n % 65536) = BitVec.ofNat 16 n := by
    apply BitVec.eq_of_toNat_eq
    simp
  exact hbefore _ hlt (hround ▸ hn)

/-- The events of the characters of the `n` cells upward from the address in R0. -/
def stringOut (chars : Word → List Byte) (n : Nat) (s : State) : List ConEvent :=
  (List.range n).flatMap fun k => (chars (s.memRead (s.reg 0 + BitVec.ofNat 16 k))).map .out

theorem stringOut_eq_map_out (chars : Word → List Byte) (n : Nat) (s : State) :
    stringOut chars n s =
      ((List.range n).flatMap fun k => chars (s.mem.read (s.reg 0 + BitVec.ofNat 16 k))).map .out :=
  List.map_flatMap.symm

section

variable {stop : Word → Bool} {chars : Word → List Byte} {loop : Phase} {s : State}

/-- A string service whose first terminating cell is `n` cells away writes the characters before it and flushes. -/
theorem serviceString_of_terminated {n : Nat}
    (hbefore : ∀ k, k < n → ¬ stop (s.memRead (s.reg 0 + BitVec.ofNat 16 k)) = true)
    (hn : stop (s.memRead (s.reg 0 + BitVec.ofNat 16 n)) = true) :
    (serviceString stop chars loop s).phase = .ready ∧
      OnlyOutput s (serviceString stop chars loop s) (stringOut chars n s ++ [.flush]) := by
  have hlt := lt_memSize_of_first (p := fun a => stop (s.memRead a) = true) hbefore hn
  rw [serviceString_of_scan stop chars loop s _ (scanCells_of_stop s.mem stop chars n Config.memSize (s.reg 0) hlt
    (fun k hk => Bool.eq_false_of_not_eq_true (hbefore k hk)) hn), stringOut_eq_map_out]
  exact ⟨rfl, List.append_assoc _ _ _, fun _ => rfl, rfl, rfl, fun _ => rfl, rfl, rfl, rfl, rfl⟩

/-- A string service over a memory with no terminating cell writes the characters of one round and stays inside its scan. -/
theorem serviceString_of_unterminated (h : ∀ a, ¬ stop (s.memRead a) = true) :
    (serviceString stop chars loop s).phase = loop ∧
      OnlyOutput s (serviceString stop chars loop s) (stringOut chars Config.memSize s) := by
  rw [serviceString_of_endless_scan stop chars loop s _ (scanCells_of_no_stop s.mem stop chars Config.memSize (s.reg 0)
    fun k _ => Bool.eq_false_of_not_eq_true (h _)), stringOut_eq_map_out]
  exact ⟨rfl, rfl, fun _ => rfl, rfl, rfl, fun _ => rfl, rfl, rfl, rfl, rfl⟩

end

theorem putsStop_iff (w : Word) : putsStop w = true ↔ w = 0 := beq_iff_eq

theorem putspStop_iff (w : Word) : putspStop w = true ↔ w.extractLsb 7 0 = 0 := beq_iff_eq

/-- PUTS writes one character for each cell (R101). -/
theorem stringOut_putsChars (n : Nat) (s : State) :
    stringOut putsChars n s =
      (List.range n).map fun k => ConEvent.out ((s.memRead (s.reg 0 + BitVec.ofNat 16 k)).extractLsb 7 0) :=
  List.map_eq_flatMap.symm

/-- PUTSP's characters of a cell: the low byte, and the high byte if it is not zero (R103). -/
theorem map_out_putspChars (w : Word) :
    (putspChars w).map ConEvent.out =
      .out (w.extractLsb 7 0) :: (if w.extractLsb 15 8 = 0 then [] else [.out (w.extractLsb 15 8)]) := by
  rw [putspChars, List.map_cons, apply_ite (List.map ConEvent.out)]
  rfl

theorem step_of_putsLoop {s : State} (hr : s.runState = .running) (hp : s.phase = .putsLoop) :
    step s = exec .puts s := by
  simp [step, runningStep, hr, hp, exec, execPuts]

theorem step_of_putspLoop {s : State} (hr : s.runState = .running) (hp : s.phase = .putspLoop) :
    step s = exec .putsp s := by
  simp [step, runningStep, hr, hp, exec, execPutsp]

/-- Settles O30: PUTS is the string service that stops at a zero cell. -/
theorem putsWritesTheCellsBeforeTheFirstZeroCell : Obligations.PutsWritesTheCellsBeforeTheFirstZeroCell := by
  intro s n hbefore hn
  rw [← stringOut_putsChars]
  exact ⟨_, rfl, serviceString_of_terminated (by simpa only [putsStop_iff] using hbefore) ((putsStop_iff _).mpr hn)⟩

/-- Settles O31: PUTSP is the string service that stops at a zero low byte. -/
theorem putspWritesThePackedCharacters : Obligations.PutspWritesThePackedCharacters := by
  intro s n hbefore hn
  simp only [← map_out_putspChars]
  exact ⟨_, rfl, serviceString_of_terminated (by simpa only [putspStop_iff] using hbefore)
    ((putspStop_iff _).mpr hn)⟩

/-- Settles O32: with no cell to stop at, a scan of all of memory ends where it began. -/
theorem stringServicesWithNoTerminatorNeverComplete : Obligations.StringServicesWithNoTerminatorNeverComplete := by
  refine ⟨fun s h => ⟨?_, step_of_putsLoop⟩, fun s h => ⟨?_, step_of_putspLoop⟩⟩
  · rw [← stringOut_putsChars]
    exact ⟨_, rfl, serviceString_of_unterminated (by simpa only [putsStop_iff] using h)⟩
  · simp only [← map_out_putspChars]
    exact ⟨_, rfl, serviceString_of_unterminated (by simpa only [putspStop_iff] using h)⟩

/-! ## OUT, HALT, and the input services with a character (R99, R100, R102, R104) -/

/-- Settles O29: OUT is one character and a flush. -/
theorem outWritesTheLowByteAndFlushes : Obligations.OutWritesTheLowByteAndFlushes :=
  fun _ => ⟨_, rfl, ⟨List.append_assoc _ _ _, fun _ => rfl, rfl, rfl, fun _ => rfl, rfl, rfl, rfl, rfl⟩, rfl⟩

/-- Settles O33: GETC is the input part, IN the input part after the prompt and its flush. -/
theorem inputServicesReadOneCharacter : Obligations.InputServicesReadOneCharacter := by
  intro s c rest h
  refine ⟨⟨_, rfl, reg_inputToR0_of_char h, inputToR0_frame_of_char h⟩, ?_⟩
  have hprompt : (conFlush (conOutAll inPrompt s)).consoleIn = c :: rest := h
  obtain ⟨hout, -⟩ := onlyOutput_prompt s
  rw [← hout]
  exact ⟨_, rfl, reg_inputToR0_of_char hprompt, inputToR0_frame_of_char hprompt⟩

/-- Settles O36: HALT is its text, a flush, and the move to Halted. -/
theorem haltWritesStoppedAndHalts : Obligations.HaltWritesStoppedAndHalts :=
  fun _ => ⟨_, rfl, rfl, List.append_assoc _ _ _, fun _ => rfl, rfl, rfl, fun _ => rfl, rfl, rfl, rfl, rfl⟩

/-! ## The dispatch on the vector (R93, R105) -/

theorem isServiceVector_eq_false_iff (v : BitVec 8) :
    isServiceVector v = false ↔ v.toNat < 0x20 ∨ 0x25 < v.toNat := by
  rw [isServiceVector, Bool.and_eq_false_iff]
  simp only [decide_eq_false_iff_not, Nat.not_le]

theorem exec_trap_of_unknownVector {v : BitVec 8} (h : v.toNat < 0x20 ∨ 0x25 < v.toNat) (s : State) :
    exec (.trap v) s = .next (raiseFatal .unknownTrap (v.setWidth 16) s) := by
  rw [exec_of_trapVector (i := .trap v) rfl, dispatchTrap_unknown v s ((isServiceVector_eq_false_iff v).mpr h), zext16]

/-- Settles O37: at a service's vector the generic TRAP and the service's own instruction are one dispatch. -/
theorem trapDispatchesOnItsVector : Obligations.TrapDispatchesOnItsVector :=
  fun s => ⟨rfl, rfl, rfl, rfl, rfl, rfl, fun _ h => exec_trap_of_unknownVector h s⟩

/-- The fatal entry moves the diagnostic stream, FATAL and RUNSTATE, and nothing else (R113). -/
theorem onlyFatal_raiseFatal (s : State) (q : FatalReason) (w : Word) : OnlyFatal s (raiseFatal q w s) ⟨q, w⟩ :=
  ⟨rfl, rfl, rfl, fun r => reg_raiseFatal s q w r, rfl, rfl, fun _ => rfl, rfl, rfl, rfl⟩

/-- Settles O38: the fatal entry is all such a TRAP does. -/
theorem unknownTrapVectorIsFatal : Obligations.UnknownTrapVectorIsFatal :=
  fun s _ h => ⟨_, exec_trap_of_unknownVector h s, onlyFatal_raiseFatal s _ _⟩

end Sys2Proof.Machine

/-! # The reserved opcodes (spec 45_reserved.md): RTI and RES -/

namespace Sys2Proof.Machine

/-- RTI and RES are one operation, the fatal entry with the word in IR (R107, R108). -/
theorem exec_reserved {i : Instr} (h : i = .rti ∨ i = .res) (s : State) :
    exec i s = .next (raiseFatal .reservedOpcode s.ir s) := by
  obtain rfl | rfl := h <;> rfl

/-- An RTI or RES has the fatal entry with the word in IR as its only effect. -/
theorem onlyFatal_of_reserved {i : Instr} (h : i = .rti ∨ i = .res) (s : State) :
    ∃ t, exec i s = .next t ∧ OnlyFatal s t ⟨.reservedOpcode, s.ir⟩ :=
  ⟨_, exec_reserved h s, onlyFatal_raiseFatal s _ _⟩

/-- Settles O40: the fatal entry is all that either does. -/
theorem reservedOpcodesAreFatal : Obligations.ReservedOpcodesAreFatal :=
  fun s => ⟨onlyFatal_of_reserved (.inl rfl) s, onlyFatal_of_reserved (.inr rfl) s⟩

/-- The opcode alone makes a word an RTI or a RES: bits 11 to 0 are not read. -/
theorem decodeWord_reserved {w : Word} (h : w.extractLsb 15 12 = 0x8 ∨ w.extractLsb 15 12 = 0xD) :
    ∃ i, decodeWord w = .ok i ∧ (i = .rti ∨ i = .res) := by
  obtain hop | hop : opField w = 0x8 ∨ opField w = 0xD := h
  · exact ⟨.rti, decodeWith_of_handler handlerOf w .rti (congrArg handlerOf hop), .inl rfl⟩
  · exact ⟨.res, decodeWith_of_handler handlerOf w .res (congrArg handlerOf hop), .inr rfl⟩

/-- Settles O41: the fetch puts the word in IR and moves PC one on, and the fatal entry keeps both (R66). -/
theorem reservedWordStepsHaltWithThatWord : Obligations.ReservedWordStepsHaltWithThatWord := by
  intro s hr hp hop
  obtain ⟨i, hdec, hi⟩ := decodeWord_reserved hop
  obtain ⟨t, ht, hout, hfatal, hhalted, hregs, hcond, hpc, hmem, hin, -⟩ := onlyFatal_of_reserved hi (fetch s)
  exact ⟨t, (step_eq_exec hr hp hdec).trans ht, hhalted, hfatal, hout, hpc, hregs, hcond, hmem, hin⟩

end Sys2Proof.Machine

/-! # Exceptions (spec 60_exceptions.md): the fatal entry, steps are total, TRAP as a service call, the cause of FATAL -/

namespace Sys2Proof.Machine

/-- Settles O12: the fatal entry's frame over every reason and word. -/
theorem fatalEntryRecordsAndHalts : Obligations.FatalEntryRecordsAndHalts :=
  fun q w s => onlyFatal_raiseFatal s q w

/-! ## Every step answers a next state -/

theorem exec_total (i : Instr) (s : State) : ∃ t, exec i s = .next t := by
  cases i <;> exact ⟨_, rfl⟩

theorem step_total_of_running {s : State} (hr : s.runState = .running) : ∃ t, step s = .next t := by
  cases hp : s.phase with
  | ready =>
    obtain ⟨o, -, hdec⟩ := decodeWord_total (s.memRead s.pc)
    rw [step_eq_exec hr hp hdec]
    exact exec_total _ _
  | inputHold => exact ⟨_, step_of_inputHold hr hp⟩
  | putsLoop => exact ⟨_, step_of_putsLoop hr hp⟩
  | putspLoop => exact ⟨_, step_of_putspLoop hr hp⟩

/-- Settles O19, one run state at a time: every word decodes, and no handler ends in a fault or a refusal. -/
theorem everyStepHasANextState : Obligations.EveryStepHasANextState := by
  refine ⟨exec_total, fun s => ?_⟩
  cases hr : s.runState with
  | preRun => exact ⟨_, step_of_preRun hr⟩
  | running => exact step_total_of_running hr
  | halted => exact ⟨_, step_of_halted hr⟩

/-! ## A TRAP as a service call (R111) -/

/-- The input part of GETC and IN leaves R0 when held, or puts the character there, zero-extended (R70, D11). -/
theorem reg_zero_inputToR0 (s : State) :
    (inputToR0 s).reg 0 = s.reg 0 ∨ ∃ c rest, s.consoleIn = c :: rest ∧ (inputToR0 s).reg 0 = zext16 c := by
  obtain ⟨c, rest, h, -⟩ | ⟨-, e⟩ := inputToR0_cases s
  · exact .inr ⟨c, rest, h, reg_inputToR0_of_char h 0⟩
  · exact .inl (by rw [e]; rfl)

/-- GETC and IN both write R0 by the input part; IN's prompt before it leaves R0 and the input alone (R99, R102). -/
theorem reg_zero_dispatchTrap_of_input {v : BitVec 8} (hv : v = 0x20 ∨ v = 0x23) (s : State) :
    (dispatchTrap v s).reg 0 = s.reg 0 ∨
      ∃ c rest, s.consoleIn = c :: rest ∧ (dispatchTrap v s).reg 0 = zext16 c := by
  obtain rfl | rfl := hv
  · exact reg_zero_inputToR0 s
  · exact reg_zero_inputToR0 (conFlush (conOutAll inPrompt s))

theorem dispatchTrap_runState_of_nonhalting {v : BitVec 8} (hl : 0x20 ≤ v.toNat) (hu : v.toNat < 0x25) (s : State) :
    (dispatchTrap v s).runState = s.runState := by
  obtain ⟨hkept, -⟩ | ⟨rfl, -⟩ | ⟨hunknown, -⟩ := dispatchTrap_status_cases v s
  · exact hkept
  · exact absurd hu (by decide)
  · rw [isServiceVector_eq_false_iff] at hunknown
    omega

/-- HALT's service and the fatal entry of an unknown vector both halt (R104, R105). -/
theorem dispatchTrap_runState_of_halting {v : BitVec 8} (h : v.toNat < 0x20 ∨ 0x25 ≤ v.toNat) (s : State) :
    (dispatchTrap v s).runState = .halted := by
  by_cases hv : v = 0x25
  · rw [hv]; rfl
  · have hunknown : isServiceVector v = false := by
      rw [isServiceVector_eq_false_iff]
      bv_omega
    rw [dispatchTrap_unknown v s hunknown, raiseFatal_runState]

/-- Settles O39, by what the dispatch on the vector does to each part of the state. -/
theorem trapIsAServiceCall : Obligations.TrapIsAServiceCall := by
  intro v s t h
  obtain rfl : dispatchTrap v s = t := Host.Outcome.next.inj h
  obtain ⟨hcond, hpc, hmem⟩ := dispatchTrap_frame v s
  exact ⟨fun r hr => reg_dispatchTrap v s r fun _ => hr,
    fun hgetc hin => reg_dispatchTrap v s 0 fun hv => absurd hv (not_or.mpr ⟨hgetc, hin⟩),
    fun hv => reg_zero_dispatchTrap_of_input hv s, hcond, hpc, sameMemory_of_mem_eq hmem,
    fun hl hu => dispatchTrap_runState_of_nonhalting hl hu s, fun hv => dispatchTrap_runState_of_halting hv s⟩

/-! ## The cause of a fatal status (R112, R116) -/

theorem opcode_of_trapVector {i : Instr} {v : BitVec 8} (h : trapVector i = some v) : i.opcode = .trap := by
  cases i <;> cases h <;> rfl

/-- A handler gives instructions of its own opcode only, whichever mode bit the word has. -/
theorem opcode_decodeAs (o : Opcode) (w : Word) : (decodeAs o w).opcode = o := by
  cases o
  case add | and | jsr => exact (apply_ite Instr.opcode ..).trans (ite_self _)
  case trap => exact opcode_of_trapVector (decodeTrap_spec (trapVectorField w)).1
  all_goals rfl

theorem handlerOf_of_decodeWord {w : Word} {i : Instr} (h : decodeWord w = .ok i) :
    handlerOf (opField w) = some i.opcode := by
  obtain ⟨o, ho, hdec⟩ := decodeWord_total w
  obtain rfl : decodeAs o w = i := Except.ok.inj (hdec.symm.trans h)
  rw [ho, opcode_decodeAs]

/-- What an instruction does to FATAL: it leaves it, or it records the reserved word or the unknown vector (R112). -/
theorem exec_fatal_cases {i : Instr} {s t : State} (h : exec i s = .next t) :
    t.fatal = s.fatal ∨
    ((i = .rti ∨ i = .res) ∧ t.fatal = some ⟨.reservedOpcode, s.ir⟩) ∨
    ∃ v, isServiceVector v = false ∧ t.fatal = some ⟨.unknownTrap, zext16 v⟩ := by
  obtain ⟨-, hkept⟩ | ⟨-, -, hkept⟩ | ⟨hi, -⟩ := exec_status_cases h
  · exact .inl hkept
  · exact .inl hkept
  · obtain hreserved | ⟨v, rfl, hv⟩ := or_assoc.mpr hi
    · rw [exec_reserved hreserved] at h
      cases h
      exact .inr (.inl ⟨hreserved, rfl⟩)
    · rw [exec_trap_of_unknownVector ((isServiceVector_eq_false_iff v).mp hv)] at h
      cases h
      exact .inr (.inr ⟨v, hv, rfl⟩)

theorem caused_of_decodeWord_reserved {w : Word} {i : Instr} (hdec : decodeWord w = .ok i)
    (hi : i = .rti ∨ i = .res) : FatalRecord.caused ⟨.reservedOpcode, w⟩ := by
  obtain rfl | rfl := hi
  · exact .inl (handlerOf_of_decodeWord hdec)
  · exact .inr (handlerOf_of_decodeWord hdec)

theorem State.FatalCaused.of_fatal_eq {s t : State} (hs : s.FatalCaused) (h : t.fatal = s.fatal) : t.FatalCaused :=
  fun r hr => hs r (h.symm.trans hr)

theorem fatalCaused_of_caused {t : State} {r : FatalRecord} (h : t.fatal = some r) (hr : r.caused) : t.FatalCaused := by
  intro r' hr'
  obtain rfl : r = r' := Option.some.inj (h.symm.trans hr')
  exact hr

/-- Every handler, run with its own word in IR, leaves FATAL with a cause. -/
theorem exec_fatalCaused {i : Instr} {s t : State} (hs : s.FatalCaused) (hdec : decodeWord s.ir = .ok i)
    (h : exec i s = .next t) : t.FatalCaused := by
  obtain hkept | ⟨hi, hf⟩ | ⟨v, hv, hf⟩ := exec_fatal_cases h
  · exact hs.of_fatal_eq hkept
  · exact fatalCaused_of_caused hf (caused_of_decodeWord_reserved hdec hi)
  · exact fatalCaused_of_caused hf ⟨v, hv, rfl⟩

/-- Settles O54: only a step that runs a decoded instruction can write FATAL, and the fetch put its word in IR. -/
theorem everyStepKeepsTheFatalCause : Obligations.EveryStepKeepsTheFatalCause := by
  intro s t hs h
  obtain ⟨-, rfl⟩ | ⟨-, rfl⟩ | ⟨-, -, i, hdec, he⟩ | ⟨-, -, rfl⟩ | ⟨-, -, rfl⟩ | ⟨-, -, rfl⟩ := step_cases h
  · obtain ⟨-, e⟩ | ⟨-, e⟩ := start_cases s <;> rw [e] <;> exact hs
  · exact hs
  · exact exec_fatalCaused (s := fetch s) hs hdec he
  · exact hs.of_fatal_eq (by simp)
  · exact hs.of_fatal_eq (by simp [servicePuts])
  · exact hs.of_fatal_eq (by simp [servicePutsp])

end Sys2Proof.Machine

/-! # Reset and the host (spec 70_reset_and_hazards.md): the loader, supplying input, and the invariants under both -/

namespace Sys2Proof.Machine

/-! ## The loader's writes to memory (R127) -/

theorem imageRoom_eq : imageRoom = 0xD000 := rfl

/-- The cells at distance `ws.length` or more above the first one keep their words. -/
theorem read_storeWords_outside (ws : List Word) (a b : Word) (m : Memory) (h : ws.length ≤ (b - a).toNat) :
    (storeWords a ws m).read b = m.read b := by
  induction ws generalizing a m with
  | nil => rfl
  | cons w rest ih =>
    rw [List.length_cons] at h
    have hne : b ≠ a := by bv_omega
    have hrest : rest.length ≤ (b - (a + 1)).toNat := by bv_omega
    exact (ih (a + 1) (m.write a w) hrest).trans (read_write_other m a b w hne)

/-- At most 65,536 words, so that no cell is written twice. -/
theorem read_storeWords_of_lt (ws : List Word) (a : Word) (m : Memory) (hfit : ws.length ≤ Config.memSize) (k : Nat)
    (hk : k < ws.length) : (storeWords a ws m).read (a + BitVec.ofNat 16 k) = ws[k] := by
  induction ws generalizing a m k with
  | nil => exact absurd hk (Nat.not_lt_zero k)
  | cons w rest ih =>
    have hrest : rest.length < 65536 := hfit
    cases k with
    | zero =>
      have hlast : rest.length ≤ (a - (a + 1)).toNat := by bv_omega
      rw [BitVec.add_zero]
      exact (read_storeWords_outside rest (a + 1) a (m.write a w) hlast).trans (read_write_same m a w)
    | succ k =>
      have hnext : a + BitVec.ofNat 16 (k + 1) = a + 1 + BitVec.ofNat 16 k := by bv_omega
      rw [hnext]
      exact ih (a + 1) (m.write a w) hrest.le k (Nat.lt_of_succ_lt_succ hk)

theorem loadWords_of_preRun {ws : List Word} {s : State} (hr : s.runState = .preRun) (hfit : ws.length ≤ imageRoom) :
    loadWords ws s = some { s with mem := storeWords Config.origin ws s.mem } := by
  simp [loadWords, hr, hfit]

theorem loadCell_of_preRun {s : State} (hr : s.runState = .preRun) (a v : Word) :
    loadCell a v s = some (s.memWrite a v) := by
  simp [loadCell, hr]

/-! ## Images of bytes (R127) -/

theorem imageWords_cons_cons (b0 b1 : Byte) (rest : List Byte) :
    imageWords (b0 :: b1 :: rest) = (imageWords rest).map (wordOfBytes b0 b1 :: ·) := rfl

theorem wordOfBytes_extractLsb (w : Word) : wordOfBytes (w.extractLsb 7 0) (w.extractLsb 15 8) = w :=
  (BitVec.extractLsb'_append_extractLsb'_eq_extractLsb' (x := w) (start₁ := 0) (len₁ := 8) (len₂ := 8) rfl).trans
    BitVec.extractLsb'_eq_self

theorem imageWords_bytes (ws : List Word) :
    imageWords (ws.flatMap fun w => [w.extractLsb 7 0, w.extractLsb 15 8]) = some ws := by
  induction ws with
  | nil => rfl
  | cons w rest ih =>
    rw [List.flatMap_cons, List.cons_append, List.cons_append, List.nil_append, imageWords_cons_cons, ih,
      wordOfBytes_extractLsb, Option.map_some]

theorem length_of_imageWords {bytes : List Byte} {ws : List Word} (h : imageWords bytes = some ws) :
    bytes.length = 2 * ws.length := by
  induction bytes using imageWords.induct generalizing ws with
  | case1 => cases h; rfl
  | case2 => cases h
  | case3 b0 b1 rest ih =>
    obtain ⟨ws', hrest, rfl⟩ := Option.map_eq_some_iff.mp h
    rw [List.length_cons, List.length_cons, List.length_cons, ih hrest]
    omega

theorem loadImage_of_imageWords {bytes : List Byte} {ws : List Word} (h : imageWords bytes = some ws) (s : State) :
    loadImage bytes s = loadWords ws s := by
  rw [loadImage, h]

/-- Settles O51, by reads of the memory that `storeWords` leaves and by the inverse property of image bytes. -/
theorem loaderFillsConsecutiveCellsFromTheOrigin : Obligations.LoaderFillsConsecutiveCellsFromTheOrigin := by
  refine ⟨fun s ws hr hlen => ?_, fun b0 b1 rest ws h => ?_, rfl, fun ws => ⟨imageWords_bytes ws, fun s => ?_⟩⟩
  · have hfit : ws.length ≤ Config.memSize := hlen.trans (by decide)
    exact ⟨_, loadWords_of_preRun hr hlen, rfl,
      fun k hk => read_storeWords_of_lt ws Config.origin s.mem hfit k hk,
      fun a ha => read_storeWords_outside ws Config.origin a s.mem ha⟩
  · rw [imageWords_cons_cons, h]
    rfl
  · exact loadImage_of_imageWords (imageWords_bytes ws) s

/-! ## Single cells and input (R132), and the loads that are turned away (R126) -/

/-- Settles O57; a load of a cell is the memory write of R35. -/
theorem hostWritesCellsBeforeStartAndSuppliesInputAnyTime :
    Obligations.HostWritesCellsBeforeStartAndSuppliesInputAnyTime := by
  refine ⟨fun s a v hr => ?_, fun s cs => ⟨rfl, rfl⟩⟩
  obtain ⟨hsame, hother⟩ := memoryWriteReadsBackAndChangesNoOtherCell s a v
  exact ⟨_, loadCell_of_preRun hr a v, rfl, hsame, hother⟩

theorem loadWords_eq_none {ws : List Word} {s : State} (h : s.runState ≠ .preRun ∨ imageRoom < ws.length) :
    loadWords ws s = none := by
  refine Option.eq_none_iff_forall_ne_some.mpr fun t ht => ?_
  obtain ⟨hr, hfit, -⟩ := loadWords_cases ht
  obtain hne | hlong := h
  · exact hne hr
  · exact hfit.not_gt hlong

theorem loadImage_eq_none {bytes : List Byte} {s : State}
    (h : ∀ ws, imageWords bytes = some ws → loadWords ws s = none) : loadImage bytes s = none := by
  refine Option.eq_none_iff_forall_ne_some.mpr fun t ht => ?_
  obtain ⟨ws, hws, hload⟩ := loadImage_cases ht
  rw [h ws hws] at hload
  cases hload

theorem loadCell_eq_none {s : State} (h : s.runState ≠ .preRun) (a v : Word) : loadCell a v s = none :=
  Option.eq_none_iff_forall_ne_some.mpr fun _ ht => h (loadCell_cases ht).1

/-- Settles O58: an image of bytes that does not fit has no words, or too many of them. -/
theorem loadsOutsidePreRunAndImagesThatDoNotFitAreTurnedAway :
    Obligations.LoadsOutsidePreRunAndImagesThatDoNotFitAreTurnedAway := by
  refine ⟨fun s hr => ⟨fun ws => ?_, fun bytes => ?_, fun a v => loadCell_eq_none hr a v⟩,
    fun ws s hlen => loadWords_eq_none (.inr hlen), fun bytes s hbytes => ?_⟩
  · exact loadWords_eq_none (.inl hr)
  · exact loadImage_eq_none fun ws _ => loadWords_eq_none (.inl hr)
  · refine loadImage_eq_none fun ws hws => loadWords_eq_none (.inr ?_)
    rw [length_of_imageWords hws] at hbytes
    rw [imageRoom_eq]
    omega

/-! ## The invariants under the host's operations -/

section

variable {s t : State}

theorem start_frame (s : State) :
    (start s).fatal = s.fatal ∧ (start s).phase = s.phase ∧ (start s).consoleOut = s.consoleOut := by
  obtain ⟨-, e⟩ | ⟨-, e⟩ := start_cases s <;> rw [e] <;> exact ⟨rfl, rfl, rfl⟩

theorem supplyInput_inv (hs : s.Inv) (cs : List Byte) : (supplyInput cs s).Inv where
  memCanonical := hs.memCanonical
  condLegal := hs.condLegal
  fatalIsHalted := hs.fatalIsHalted
  midStepIsRunning := hs.midStepIsRunning
  diagnosticsAreFatal := hs.diagnosticsAreFatal

theorem State.Inv.with_mem (hs : s.Inv) {m : Memory} (hm : m.wf) : { s with mem := m }.Inv where
  memCanonical := hm
  condLegal := hs.condLegal
  fatalIsHalted := hs.fatalIsHalted
  midStepIsRunning := hs.midStepIsRunning
  diagnosticsAreFatal := hs.diagnosticsAreFatal

theorem State.OutputFlushed.of_eq (hs : s.OutputFlushed) (hp : t.phase = s.phase)
    (ho : t.consoleOut = s.consoleOut) : t.OutputFlushed := by
  rw [State.OutputFlushed, hp, ho]
  exact hs

/-- Every load is a change of memory alone that keeps the canonical form, so a property kept by such changes is kept by
every load. -/
theorem loads_keep {P : State → Prop} (hmem : ∀ m : Memory, (s.mem.wf → m.wf) → P { s with mem := m }) :
    (∀ ws t, loadWords ws s = some t → P t) ∧ (∀ bytes t, loadImage bytes s = some t → P t) ∧
      ∀ a v t, loadCell a v s = some t → P t := by
  have hwords : ∀ ws t, loadWords ws s = some t → P t := by
    intro ws t h
    obtain ⟨-, -, rfl⟩ := loadWords_cases h
    exact hmem _ (storeWords_wf ws Config.origin s.mem)
  refine ⟨hwords, fun bytes t h => ?_, fun a v t h => ?_⟩
  · obtain ⟨ws, -, hload⟩ := loadImage_cases h
    exact hwords ws t hload
  · obtain ⟨-, rfl⟩ := loadCell_cases h
    exact hmem _ (write_wf s.mem a v)

end

/-- Settles O59: start and input touch nothing the invariants speak of beyond RUNSTATE, and a load only memory. -/
theorem hostOperationsKeepTheInvariants : Obligations.HostOperationsKeepTheInvariants := by
  intro P hP s hs
  simp only [List.mem_cons, List.not_mem_nil, or_false] at hP
  obtain rfl | rfl | rfl := hP
  · exact ⟨start_inv hs, supplyInput_inv hs, loads_keep fun m hm => hs.with_mem (hm hs.memCanonical)⟩
  · obtain ⟨hfatal, -, -⟩ := start_frame s
    exact ⟨hs.of_fatal_eq hfatal, fun _ => hs.of_fatal_eq rfl, loads_keep fun _ _ => hs.of_fatal_eq rfl⟩
  · obtain ⟨-, hphase, hout⟩ := start_frame s
    exact ⟨hs.of_eq hphase hout, fun _ => hs.of_eq rfl rfl, loads_keep fun _ _ => hs.of_eq rfl rfl⟩

end Sys2Proof.Machine
